-- ==== Sys2Proof/Word.lean ====
section
/-! DEFINITION. The word of the VCPU-16 (00_scope.md R3, R5). -/

namespace Sys2Proof

/-- A word is 16 bits: the only unit of memory, of registers and of encoding (R3, R5, R30). -/
abbrev Word := BitVec 16

end Sys2Proof
end

