-- ==== Sys2Proof/Syntax.lean ====
section
/-! DEFINITION. Registers, operand forms and the 39 instructions (30_encoding.md R57, 40_operands.md R72, R73). -/

namespace Sys2Proof

/-- The eight general registers A, B, C, X, Y, Z, I, J (10_state.md R10). -/
inductive Reg
  | a | b | c | x | y | z | i | j
deriving DecidableEq, Repr

/-- What an upper operand code selects, with its NEXT word where the form has one (R72). -/
inductive UOperand
  /-- 0x00-0x07: the register. -/
  | reg (r : Reg)
  /-- 0x08-0x0F: `[reg]`. -/
  | mem (r : Reg)
  /-- 0x10-0x17: `[reg + NEXT]`. -/
  | memNext (r : Reg) (n : Word)
  /-- 0x18: `[SP++]`, the pop. -/
  | pop
  /-- 0x19: `[SP]`. -/
  | peek
  /-- 0x1A: `[SP + NEXT]`. -/
  | pick (n : Word)
  /-- 0x1B: SP. -/
  | sp
  /-- 0x1C: PC. -/
  | pc
  /-- 0x1D: PS. -/
  | ps
  /-- 0x1E: `[NEXT]`. -/
  | abs (n : Word)
  /-- 0x1F: NEXT as a literal. -/
  | next (n : Word)
  /-- 0x20-0x3F: a short literal, whose value `v` is -1 (0xFFFF) to 30 (R56). -/
  | lit (v : Word)
deriving DecidableEq, Repr

/-- What a middle operand code selects, with its NEXT word where the form has one (R73). -/
inductive MOperand
  /-- 0x00-0x07: the register. -/
  | reg (r : Reg)
  /-- 0x08-0x0F: `[reg]`. -/
  | mem (r : Reg)
  /-- 0x10-0x17: `[reg + NEXT]`. -/
  | memNext (r : Reg) (n : Word)
  /-- 0x18: `[--SP]`, the push. -/
  | push
  /-- 0x19: `[SP]`. -/
  | peek
  /-- 0x1A: `[SP + NEXT]`. -/
  | pick (n : Word)
  /-- 0x1B: SP. -/
  | sp
  /-- 0x1C: PC. -/
  | pc
  /-- 0x1D: PS. -/
  | ps
  /-- 0x1E: `[NEXT]`. -/
  | abs (n : Word)
  /-- 0x1F: NEXT as a literal. -/
  | next (n : Word)
deriving DecidableEq, Repr

/-- The instruction set, one constructor per row of spec/opcode_table.json (R57).
Binary instructions are written `OP m, u`: the middle operand first (R52). -/
inductive Instr
  | set (m : MOperand) (u : UOperand)
  | add (m : MOperand) (u : UOperand)
  | sub (m : MOperand) (u : UOperand)
  | mul (m : MOperand) (u : UOperand)
  | mli (m : MOperand) (u : UOperand)
  | div (m : MOperand) (u : UOperand)
  | dvi (m : MOperand) (u : UOperand)
  | mod (m : MOperand) (u : UOperand)
  | mdi (m : MOperand) (u : UOperand)
  | and (m : MOperand) (u : UOperand)
  | bor (m : MOperand) (u : UOperand)
  | xor (m : MOperand) (u : UOperand)
  | lls (m : MOperand) (u : UOperand)
  | lrs (m : MOperand) (u : UOperand)
  | ars (m : MOperand) (u : UOperand)
  | ifb (m : MOperand) (u : UOperand)
  | ifc (m : MOperand) (u : UOperand)
  | ife (m : MOperand) (u : UOperand)
  | ifn (m : MOperand) (u : UOperand)
  | ifg (m : MOperand) (u : UOperand)
  | ifa (m : MOperand) (u : UOperand)
  | ifl (m : MOperand) (u : UOperand)
  | ifu (m : MOperand) (u : UOperand)
  | adx (m : MOperand) (u : UOperand)
  | sbx (m : MOperand) (u : UOperand)
  | sti (m : MOperand) (u : UOperand)
  | std (m : MOperand) (u : UOperand)
  | jsr (u : UOperand)
  | int (u : UOperand)
  | iag (u : UOperand)
  | ias (u : UOperand)
  | rfi (u : UOperand)
  | iaq (u : UOperand)
  | hwn (u : UOperand)
  | hwq (u : UOperand)
  | hwi (u : UOperand)
  | nop
  | clk
  | err
deriving DecidableEq, Repr

end Sys2Proof
end

