-- ==== Sys2Proof/WellFormed.lean ====
section
/-! DEFINITION. Which instructions have an encoding (30_encoding.md R56). Every register and every NEXT word is
encodable, so the one check is the range of a short literal. -/

namespace Sys2Proof

/-- A short literal is -1 (0xFFFF) to 30 (R56); every other upper form always has a code (R72). -/
def UOperand.wellFormed : UOperand → Bool
  | .lit v => v == 0xFFFF#16 || decide (v.toNat ≤ 30)
  | _ => true

/-- Well-formedness of an instruction: that of its upper operand. -/
def Instr.wellFormed : Instr → Bool
  | .set _ u | .add _ u | .sub _ u | .mul _ u | .mli _ u | .div _ u | .dvi _ u | .mod _ u | .mdi _ u => u.wellFormed
  | .and _ u | .bor _ u | .xor _ u | .lls _ u | .lrs _ u | .ars _ u => u.wellFormed
  | .ifb _ u | .ifc _ u | .ife _ u | .ifn _ u | .ifg _ u | .ifa _ u | .ifl _ u | .ifu _ u => u.wellFormed
  | .adx _ u | .sbx _ u | .sti _ u | .std _ u => u.wellFormed
  | .jsr u | .int u | .iag u | .ias u | .rfi u | .iaq u | .hwn u | .hwq u | .hwi u => u.wellFormed
  | .nop | .clk | .err => true

end Sys2Proof
end

