-- ==== Sys2Proof/Decode.lean ====
section
/-! DEFINITION. The decoder and, after it, the encoder (30_encoding.md R50 to R61). -/

namespace Sys2Proof

/-! ## Fields of the first word -/

/-- U, the upper field `w[15:10]` (R4, R50). -/
def fieldU (w : Word) : BitVec 6 := w.extractLsb' 10 6

/-- M, the middle field `w[9:5]` (R4, R50). -/
def fieldM (w : Word) : BitVec 5 := w.extractLsb' 5 5

/-- L, the lower field `w[4:0]` (R4, R50). -/
def fieldL (w : Word) : BitVec 5 := w.extractLsb' 0 5

/-- The general register a three-bit code names, in the order of R10. -/
def Reg.ofCode (k : Nat) : Reg :=
  match k with
  | 0 => .a
  | 1 => .b
  | 2 => .c
  | 3 => .x
  | 4 => .y
  | 5 => .z
  | 6 => .i
  | _ => .j

/-! ## Length -/

/-- Whether an operand code has a NEXT word (R55). -/
def hasNext (c : Nat) : Bool :=
  (decide (0x10 ≤ c) && decide (c ≤ 0x17)) || c == 0x1A || c == 0x1E || c == 0x1F

/-- The length in words of the instruction whose first word is `w`, reserved or not (R55). -/
def instrLength (w : Word) : Nat :=
  if fieldL w ≠ 0#5 then 1 + (hasNext (fieldU w).toNat).toNat + (hasNext (fieldM w).toNat).toNat
  else if fieldM w ≠ 0#5 then 1 + (hasNext (fieldU w).toNat).toNat
  else 1

/-- Whether a first word is a conditional, IFB to IFU (R141, IsIf). -/
def isIf (w : Word) : Bool :=
  decide (0x10 ≤ (fieldL w).toNat) && decide ((fieldL w).toNat ≤ 0x17)

/-! ## Decoding -/

/-- Why words are no instruction. `truncated` is the decoder's alone: fetched from RAM, an instruction always has its words. -/
inductive DecodeError
  /-- A binary first word with opcode 0x18, 0x19, 0x1C or 0x1D (R58). -/
  | reservedBinary (w : Word)
  /-- A unary first word with a reserved opcode (R58). -/
  | reservedUnary (w : Word)
  /-- A nullary first word with opcode 0x02 to 0x3E (R58, R193). -/
  | reservedNullary (w : Word)
  /-- The list of words ends before the instruction does. -/
  | truncated
deriving DecidableEq, Repr

/-- An operand form that takes the next word of the instruction stream (R6, NEXT). -/
def takeNext {α : Type} (f : Word → α) (ws : List Word) : Except DecodeError (α × List Word) :=
  match ws with
  | [] => .error .truncated
  | n :: rest => .ok (f n, rest)

/-- The upper operand a 6-bit code selects, in the rows of R72; a short literal is `trunc16(code - 0x21)` (R56). -/
def decodeU (code : BitVec 6) (ws : List Word) : Except DecodeError (UOperand × List Word) :=
  let c := code.toNat
  if c ≤ 0x07 then .ok (.reg (Reg.ofCode c), ws)
  else if c ≤ 0x0F then .ok (.mem (Reg.ofCode (c - 0x08)), ws)
  else if c ≤ 0x17 then takeNext (UOperand.memNext (Reg.ofCode (c - 0x10))) ws
  else if c = 0x18 then .ok (.pop, ws)
  else if c = 0x19 then .ok (.peek, ws)
  else if c = 0x1A then takeNext UOperand.pick ws
  else if c = 0x1B then .ok (.sp, ws)
  else if c = 0x1C then .ok (.pc, ws)
  else if c = 0x1D then .ok (.ps, ws)
  else if c = 0x1E then takeNext UOperand.abs ws
  else if c = 0x1F then takeNext UOperand.next ws
  else .ok (.lit (BitVec.ofNat 16 c - 0x21#16), ws)

/-- The middle operand a 5-bit code selects, in the rows of R73. -/
def decodeM (code : BitVec 5) (ws : List Word) : Except DecodeError (MOperand × List Word) :=
  let c := code.toNat
  if c ≤ 0x07 then .ok (.reg (Reg.ofCode c), ws)
  else if c ≤ 0x0F then .ok (.mem (Reg.ofCode (c - 0x08)), ws)
  else if c ≤ 0x17 then takeNext (MOperand.memNext (Reg.ofCode (c - 0x10))) ws
  else if c = 0x18 then .ok (.push, ws)
  else if c = 0x19 then .ok (.peek, ws)
  else if c = 0x1A then takeNext MOperand.pick ws
  else if c = 0x1B then .ok (.sp, ws)
  else if c = 0x1C then .ok (.pc, ws)
  else if c = 0x1D then .ok (.ps, ws)
  else if c = 0x1E then takeNext MOperand.abs ws
  else takeNext MOperand.next ws

/-- The binary opcodes of R57, by the lower field. -/
def binaryOpcode (op : Nat) : Option (MOperand → UOperand → Instr) :=
  match op with
  | 0x01 => some .set
  | 0x02 => some .add
  | 0x03 => some .sub
  | 0x04 => some .mul
  | 0x05 => some .mli
  | 0x06 => some .div
  | 0x07 => some .dvi
  | 0x08 => some .mod
  | 0x09 => some .mdi
  | 0x0A => some .and
  | 0x0B => some .bor
  | 0x0C => some .xor
  | 0x0D => some .lls
  | 0x0E => some .lrs
  | 0x0F => some .ars
  | 0x10 => some .ifb
  | 0x11 => some .ifc
  | 0x12 => some .ife
  | 0x13 => some .ifn
  | 0x14 => some .ifg
  | 0x15 => some .ifa
  | 0x16 => some .ifl
  | 0x17 => some .ifu
  | 0x1A => some .adx
  | 0x1B => some .sbx
  | 0x1E => some .sti
  | 0x1F => some .std
  | _ => none

/-- The unary opcodes of R57, by the middle field. -/
def unaryOpcode (op : Nat) : Option (UOperand → Instr) :=
  match op with
  | 0x01 => some .jsr
  | 0x08 => some .int
  | 0x09 => some .iag
  | 0x0A => some .ias
  | 0x0B => some .rfi
  | 0x0C => some .iaq
  | 0x10 => some .hwn
  | 0x11 => some .hwq
  | 0x12 => some .hwi
  | _ => none

/-- The nullary opcodes of R57, by the upper field. -/
def nullaryOpcode (op : Nat) : Option Instr :=
  match op with
  | 0x00 => some .nop
  | 0x01 => some .clk
  | 0x3F => some .err
  | _ => none

/-- A binary instruction: u's NEXT word first, then m's (R52, R56, R71). -/
def decodeBinary (w : Word) (rest : List Word) : Except DecodeError (Instr × List Word) :=
  match binaryOpcode (fieldL w).toNat with
  | none => .error (.reservedBinary w)
  | some mk =>
    match decodeU (fieldU w) rest with
    | .error e => .error e
    | .ok (u, rest1) =>
      match decodeM (fieldM w) rest1 with
      | .error e => .error e
      | .ok (m, rest2) => .ok (mk m u, rest2)

/-- A unary instruction: the opcode stands in the middle field (R53). -/
def decodeUnary (w : Word) (rest : List Word) : Except DecodeError (Instr × List Word) :=
  match unaryOpcode (fieldM w).toNat with
  | none => .error (.reservedUnary w)
  | some mk =>
    match decodeU (fieldU w) rest with
    | .error e => .error e
    | .ok (u, rest1) => .ok (mk u, rest1)

/-- A nullary instruction: the opcode stands in the upper field (R54). -/
def decodeNullary (w : Word) (rest : List Word) : Except DecodeError (Instr × List Word) :=
  match nullaryOpcode (fieldU w).toNat with
  | none => .error (.reservedNullary w)
  | some i => .ok (i, rest)

/-- Decode the instruction at the head of a list of words; the rest of the list comes with it.
Total on every list; the format is told in the order lower field, middle field (R51, R61). -/
def decode (ws : List Word) : Except DecodeError (Instr × List Word) :=
  match ws with
  | [] => .error .truncated
  | w :: rest =>
    if fieldL w ≠ 0#5 then decodeBinary w rest
    else if fieldM w ≠ 0#5 then decodeUnary w rest
    else decodeNullary w rest

/-- The three words (the longest instruction, R50) of an instruction whose first `nbits` bits are `w`, numbered as
spec/opcode_table.json numbers them: bit 0 is the least significant bit of the first word, the next word's bits
count on from 16. Every bit above `nbits` is 0. -/
def tableWords (nbits w : Nat) : List Word :=
  let v := w % 2 ^ nbits
  [BitVec.ofNat 16 v, BitVec.ofNat 16 (v / 2 ^ 16), BitVec.ofNat 16 (v / 2 ^ 32)]

/-- The instruction the decoder reads from table bits. -/
def decodeTableWord (nbits w : Nat) : Option Instr :=
  match decode (tableWords nbits w) with
  | .ok (i, _) => some i
  | .error _ => none

/-! ## Encoding -/

/-- The number of a general register (R10). -/
def Reg.code : Reg → Nat
  | .a => 0
  | .b => 1
  | .c => 2
  | .x => 3
  | .y => 4
  | .z => 5
  | .i => 6
  | .j => 7

/-- The upper operand code of a form (R72); a short literal v has code v + 0x21 (R56). -/
def UOperand.code : UOperand → BitVec 6
  | .reg r => BitVec.ofNat 6 r.code
  | .mem r => BitVec.ofNat 6 (0x08 + r.code)
  | .memNext r _ => BitVec.ofNat 6 (0x10 + r.code)
  | .pop => 0x18
  | .peek => 0x19
  | .pick _ => 0x1A
  | .sp => 0x1B
  | .pc => 0x1C
  | .ps => 0x1D
  | .abs _ => 0x1E
  | .next _ => 0x1F
  | .lit v => BitVec.ofNat 6 ((v.toNat + 0x21) % 65536)

/-- The NEXT word of an upper form, if it has one. -/
def UOperand.nextWords : UOperand → List Word
  | .memNext _ n | .pick n | .abs n | .next n => [n]
  | _ => []

/-- The middle operand code of a form (R73). -/
def MOperand.code : MOperand → BitVec 5
  | .reg r => BitVec.ofNat 5 r.code
  | .mem r => BitVec.ofNat 5 (0x08 + r.code)
  | .memNext r _ => BitVec.ofNat 5 (0x10 + r.code)
  | .push => 0x18
  | .peek => 0x19
  | .pick _ => 0x1A
  | .sp => 0x1B
  | .pc => 0x1C
  | .ps => 0x1D
  | .abs _ => 0x1E
  | .next _ => 0x1F

/-- The NEXT word of a middle form, if it has one. -/
def MOperand.nextWords : MOperand → List Word
  | .memNext _ n | .pick n | .abs n | .next n => [n]
  | _ => []

/-- The first word `UUUUUUMMMMMLLLLL` (R50). -/
def firstWord (u : BitVec 6) (m : BitVec 5) (l : BitVec 5) : Word := u ++ m ++ l

/-- The words of a binary instruction: first word, u's NEXT, m's NEXT (R52, R56). -/
def encodeBinary (op : BitVec 5) (m : MOperand) (u : UOperand) : List Word :=
  firstWord u.code m.code op :: (u.nextWords ++ m.nextWords)

/-- The words of a unary instruction (R53). -/
def encodeUnary (op : BitVec 5) (u : UOperand) : List Word :=
  firstWord u.code op 0 :: u.nextWords

/-- The word of a nullary instruction (R54). -/
def encodeNullary (op : BitVec 6) : List Word := [firstWord op 0 0]

/-- The words of an instruction, by the opcodes of R57. -/
def encode : Instr → List Word
  | .set m u => encodeBinary 0x01 m u
  | .add m u => encodeBinary 0x02 m u
  | .sub m u => encodeBinary 0x03 m u
  | .mul m u => encodeBinary 0x04 m u
  | .mli m u => encodeBinary 0x05 m u
  | .div m u => encodeBinary 0x06 m u
  | .dvi m u => encodeBinary 0x07 m u
  | .mod m u => encodeBinary 0x08 m u
  | .mdi m u => encodeBinary 0x09 m u
  | .and m u => encodeBinary 0x0A m u
  | .bor m u => encodeBinary 0x0B m u
  | .xor m u => encodeBinary 0x0C m u
  | .lls m u => encodeBinary 0x0D m u
  | .lrs m u => encodeBinary 0x0E m u
  | .ars m u => encodeBinary 0x0F m u
  | .ifb m u => encodeBinary 0x10 m u
  | .ifc m u => encodeBinary 0x11 m u
  | .ife m u => encodeBinary 0x12 m u
  | .ifn m u => encodeBinary 0x13 m u
  | .ifg m u => encodeBinary 0x14 m u
  | .ifa m u => encodeBinary 0x15 m u
  | .ifl m u => encodeBinary 0x16 m u
  | .ifu m u => encodeBinary 0x17 m u
  | .adx m u => encodeBinary 0x1A m u
  | .sbx m u => encodeBinary 0x1B m u
  | .sti m u => encodeBinary 0x1E m u
  | .std m u => encodeBinary 0x1F m u
  | .jsr u => encodeUnary 0x01 u
  | .int u => encodeUnary 0x08 u
  | .iag u => encodeUnary 0x09 u
  | .ias u => encodeUnary 0x0A u
  | .rfi u => encodeUnary 0x0B u
  | .iaq u => encodeUnary 0x0C u
  | .hwn u => encodeUnary 0x10 u
  | .hwq u => encodeUnary 0x11 u
  | .hwi u => encodeUnary 0x12 u
  | .nop => encodeNullary 0x00
  | .clk => encodeNullary 0x01
  | .err => encodeNullary 0x3F

end Sys2Proof
end

