-- ==== Sys2Proof/Machine/Types.lean ====
section
/-! DEFINITION. The plain data State and Config are made of: the register file, what a device may do and see, the fault mark. -/

namespace Sys2Proof.Machine

/-- The eight general registers, 16 bits each, none hardwired or banked (10_state.md R10, R11). -/
structure Regs where
  a : Word
  b : Word
  c : Word
  x : Word
  y : Word
  z : Word
  i : Word
  j : Word
deriving DecidableEq, Repr

/-- RAM as the words that differ from what an unlisted address reads as, by rising word address.
The cell is a word and not a byte, because no half of a word has an address (R30, R31; log entry 1). -/
abbrev Memory := List (Nat × Word)

/-- One thing a device does to the processor (R214, R215): write a register, write RAM, raise an interrupt.
The queueing flag, the queue and the fault mark are out of its reach (R214, decision D17). -/
inductive DeviceAction
  /-- Write general register `r`. -/
  | setReg (r : Reg) (v : Word)
  /-- Write PC. -/
  | setPc (v : Word)
  /-- Write SP. -/
  | setSp (v : Word)
  /-- Write PS. -/
  | setPs (v : Word)
  /-- Write IA. -/
  | setIa (v : Word)
  /-- Write the RAM word at `a`. -/
  | store (a v : Word)
  /-- Raise an interrupt with message `msg` (Enqueue). -/
  | raise (msg : Word)
deriving DecidableEq, Repr

/-- A connected device (R213): its three identification words, and its own state as far as the processor can tell,
which is what it will do at the next HWIs it receives, one list of actions each (log entry 6). -/
structure Device where
  manufacturer : Word
  hardwareId : Word
  version : Word
  script : List (List DeviceAction)
deriving DecidableEq, Repr

/-- What a device may read of the processor: any register and any RAM word (R214). -/
structure View where
  regs : Regs
  pc : Word
  sp : Word
  ps : Word
  ia : Word
  mem : Memory
deriving DecidableEq, Repr

/-- How the incoming PS counts in ADX and SBX: the parameter PS_IN_READING (R117, R118, decision D5). -/
inductive PsReading
  /-- PS counts as 0 to 65535. -/
  | unsignedPs
  /-- PS counts as -32768 to 32767. -/
  | signedPs
deriving DecidableEq, Repr, Inhabited

/-- The halted-by-fault mark (10_state.md section 1, R200). -/
inductive Halt
  /-- The interrupt queue would have grown longer than 256 (R205). -/
  | onFire
  /-- A reserved first word or ERR was executed (R58, R59). -/
  | illegalInstruction (w : Word)
  /-- HWQ or HWI named a port with no device (R216). -/
  | absentPort (port : Word)
deriving DecidableEq, Repr

end Sys2Proof.Machine
end

