-- ==== Sys2Proof/Config.lean ====
section
/-! DEFINITION. What one VCPU-16 system fixes and the spec leaves OPEN (00_scope.md section 4, 92_eei_decisions.md).
Each is an opaque constant: no proof can see its value, so a statement holds whatever it is.
OPERAND_ORDER, READ_POINT, SHIFT_COUNT and RESERVED_BEHAVIOUR are decided by the spec and built into the definitions. -/

namespace Sys2Proof.Config

open Sys2Proof.Machine

/-- The connected devices at launch, in port order: N_DEVICES and DEVICE[p] (R213, decision D16; log entry 5). -/
opaque connected : List Device

/-- PS_IN_READING (R117, R118, decision D5; log entry 10). -/
opaque psInReading : PsReading

/-- The cycle clock's advance at the n-th free draw, before the law of monotonicity is applied (R191, decision D18; log entry 9). -/
opaque clockReading : Nat → BitVec 32

/-- Whether the clock reports an overflow at the n-th free draw (R191, decision D18; log entry 9). -/
opaque clockOverflow : Nat → Bool

/-- What device `port` does on an HWI once its script is used up: DEVICE[port].on_hwi, given what the device may read,
at the n-th free draw (R168, decision D25; log entry 6). -/
opaque onHwi : (port : Nat) → (draw : Nat) → View → List DeviceAction

/-- What the devices do between two processor steps once the schedule is used up, each action with the port of the device
that does it: the spontaneous relations and their free schedule (R214, R244, decisions D14, D17; log entry 7). -/
opaque spontaneous : (draw : Nat) → View → List (Nat × DeviceAction)

end Sys2Proof.Config
end

