-- ==== Sys2Proof/Machine/State.lean ====
section
/-! DEFINITION. The state of one VCPU-16 system (10_state.md section 1), its faults, and the state after reset (R24, R240). -/

namespace Sys2Proof.Machine

/-- Everything the spec gives the machine (10_state.md section 1), and two fields of the model's own. -/
structure State where
  /-- A, B, C, X, Y, Z, I, J (R10). -/
  regs : Regs
  /-- Program counter (R12). -/
  pc : Word
  /-- Stack pointer (R17). -/
  sp : Word
  /-- Program status: a whole word, no bit fields (R14). -/
  ps : Word
  /-- Interrupt address; 0 means a triggered interrupt does nothing (R18). -/
  ia : Word
  /-- RAM (R19, R30). -/
  mem : Memory
  /-- Interrupt queue, head first (R20). -/
  queue : List Word
  /-- Interrupt queueing flag (R21). -/
  queueing : Bool
  /-- Halted-by-fault mark (R200). -/
  halted : Option Halt
  /-- The cycle clock as CLK last read it: the next reading without overflow is not below it (R22, R191; log entry 9). -/
  clock : BitVec 32
  /-- The connected devices, in port order from 0 (R213). -/
  devices : List Device
  /-- The ports whose device has received an HWI, rising (R23). -/
  activated : List Nat
  /-- The model's own: what the devices do before each of the next processor steps (R214, R244; log entry 7). -/
  schedule : List (List (Nat × DeviceAction))
  /-- The model's own: how many free values have been drawn (log entry 8). -/
  draws : Nat
deriving DecidableEq, Repr

/-- Why the machine stops for good. Each carries the state it leaves; there is no step from that state (R200). -/
inductive Fault
  /-- Raised by INT, and by a device's interrupt (in an HWI or between steps), on a full queue of 256 (R204, R205).
  The source's own: neither safe nor unsafe. -/
  | onFire (left : State)
  /-- Raised by the fetch of a reserved first word and by ERR (R58, R59, R192). Safe: the spec's decision D10. -/
  | illegalInstruction (w : Word) (left : State)
  /-- Raised by HWQ and HWI of a port not below N_DEVICES (R216). Safe: the spec's decision D16. -/
  | absentPort (port : Word) (left : State)
  /-- Raised by a failed conditional whose skip never meets a word that is no conditional (R141): the instruction never ends,
  a stuck state. `left` is the state in which the skip began. Safe (log entry 12). -/
  | endlessSkip (left : State)
deriving DecidableEq, Repr

/-- Reasons to give an instruction no meaning. -/
inductive Refusal
  /-- An arm of exec without a meaning. No arm raises it: all 39 instructions are modelled. Safe. -/
  | notModelled (mnemonic : String)
deriving DecidableEq, Repr

/-- What a meaning answers. -/
abbrev Result := Host.Outcome State Fault Refusal

/-- The state after reset (R24, R240): all registers 0x0000, queue empty, queueing off, no fault mark, no device activated.
RAM lists nothing (log entry 2); the devices are the open parameter, of which at most 65535 can be connected (R3, log entry 5). -/
def State.reset : State where
  regs := ⟨0, 0, 0, 0, 0, 0, 0, 0⟩
  pc := 0
  sp := 0
  ps := 0
  ia := 0
  mem := []
  queue := []
  queueing := false
  halted := none
  clock := 0
  devices := Config.connected.take 65535
  activated := []
  schedule := []
  draws := 0

end Sys2Proof.Machine
end

