-- ==== Sys2Proof/Machine/Ops.lean ====
section
/-! DEFINITION. The named operations over registers, memory, stack, queue and faults; interrupt entry, return and dispatch. -/

namespace Sys2Proof.Machine

/-! ## Words -/

/-- `signed(v)`: the two's complement integer a word denotes (R5). -/
def signed (w : Word) : Int := w.toInt

/-- `trunc16(n)`: an integer modulo 65536 as a word (R5). -/
def trunc16 (n : Int) : Word := BitVec.ofInt 16 n

/-! ## Registers -/

/-- Read a general register (R10). -/
def Regs.get (g : Regs) : Reg → Word
  | .a => g.a
  | .b => g.b
  | .c => g.c
  | .x => g.x
  | .y => g.y
  | .z => g.z
  | .i => g.i
  | .j => g.j

/-- Write a general register (R10); no other register changes (R11). -/
def Regs.set (g : Regs) (r : Reg) (v : Word) : Regs :=
  match r with
  | .a => { g with a := v }
  | .b => { g with b := v }
  | .c => { g with c := v }
  | .x => { g with x := v }
  | .y => { g with y := v }
  | .z => { g with z := v }
  | .i => { g with i := v }
  | .j => { g with j := v }

/-- `x[r]`. -/
def State.reg (s : State) (r : Reg) : Word := s.regs.get r

/-- `x[r] <- v`. -/
def State.setReg (s : State) (r : Reg) (v : Word) : State := { s with regs := s.regs.set r v }

/-! ## Memory -/

/-- What a RAM word reads as that the list does not hold (log entry 2). -/
def unlistedWord : Word := 0#16

/-- The word at an address. -/
def Memory.read : Memory → Nat → Word
  | [], _ => unlistedWord
  | (k, v) :: rest, a => if k = a then v else Memory.read rest a

/-- Take every entry of one address out of the list. -/
def Memory.erase : Memory → Nat → Memory
  | [], _ => []
  | (k, v) :: rest, a => if k = a then Memory.erase rest a else (k, v) :: Memory.erase rest a

/-- Put an entry where the rising order of addresses wants it. -/
def Memory.insert : Memory → Nat → Word → Memory
  | [], a, v => [(a, v)]
  | (k, w) :: rest, a, v => if a < k then (a, v) :: (k, w) :: rest else (k, w) :: Memory.insert rest a v

/-- Replace the word at an address; a word that an unlisted address reads as is not listed. -/
def Memory.write (m : Memory) (a : Nat) (v : Word) : Memory :=
  if v = unlistedWord then m.erase a else (m.erase a).insert a v

/-- The list rises strictly from address `lo`, ends below `0x10000`, and lists no word an unlisted address reads as. -/
def Memory.wfFrom : Nat → Memory → Bool
  | _, [] => true
  | lo, (k, v) :: rest => decide (lo ≤ k) && decide (k < 65536) && v != unlistedWord && Memory.wfFrom (k + 1) rest

/-- The canonical form of memory. -/
def Memory.wf (m : Memory) : Bool := Memory.wfFrom 0 m

/-- `MemRead(a, 1)` (R30). -/
def State.readMem (s : State) (a : Word) : Word := s.mem.read a.toNat

/-- `MemWrite(a, 1, v)` (R30). -/
def State.writeMem (s : State) (a v : Word) : State := { s with mem := s.mem.write a.toNat v }

/-! ## PC and the stack -/

/-- PC moves past one instruction word, modulo 65536 (R12, R13). -/
def State.advance (s : State) : State := { s with pc := s.pc + 1 }

/-- `Push(v)` (R17): SP is decremented, then the word at the new SP is written. -/
def State.push (s : State) (v : Word) : State := { s with sp := s.sp - 1 }.writeMem (s.sp - 1) v

/-- `Pop()` (R17): the word at SP, and the state with SP incremented. -/
def State.pop (s : State) : Word × State := (s.readMem s.sp, { s with sp := s.sp + 1 })

/-! ## Faults -/

/-- The fault a mark stands for, with the state it leaves. -/
def Halt.fault (h : Halt) (left : State) : Fault :=
  match h with
  | .onFire => .onFire left
  | .illegalInstruction w => .illegalInstruction w left
  | .absentPort p => .absentPort p left

/-- `raise`: the machine stops for good, the fault mark set (R200). -/
def State.raise (s : State) (h : Halt) : Result := .fault (h.fault { s with halted := some h })

/-- Executing a word that is no instruction: PC has moved past the first word, nothing else changes (R58, R59, R192). -/
def State.raiseIllegal (s : State) (w : Word) : Result := s.advance.raise (.illegalInstruction w)

/-! ## Interrupts -/

/-- How many messages the queue may hold (R205). -/
def queueCapacity : Nat := 256

/-- `Enqueue(msg)` (R204): looks neither at IA nor at the queueing flag; a full queue is the fault OnFire (R205). -/
def State.enqueue (s : State) (msg : Word) : Result :=
  if s.queue.length < queueCapacity then .next { s with queue := s.queue ++ [msg] } else s.raise .onFire

/-- Taking an interrupt (R206, R207): queueing on; PC pushed, then A; PC from IA; A from the message. -/
def State.enterInterrupt (s : State) (msg : Word) : State :=
  let pushed := ({ s with queueing := true }.push s.pc).push (s.reg .a)
  { pushed with pc := s.ia }.setReg .a msg

/-- Returning from an interrupt (R164, R208): queueing off; A popped, then PC. -/
def State.returnFromInterrupt (s : State) : State :=
  let popA := { s with queueing := false }.pop
  let popPc := (popA.2.setReg .a popA.1).pop
  { popPc.2 with pc := popPc.1 }

/-- `Dispatch()` (R206): with queueing off the head of the queue is triggered; with IA = 0 it is discarded (R202). -/
def State.dispatch (s : State) : State :=
  if s.queueing then s
  else
    match s.queue with
    | [] => s
    | msg :: rest => if s.ia = 0#16 then { s with queue := rest } else { s with queue := rest }.enterInterrupt msg

/-! ## Fetch and launch -/

/-- The three words at PC, enough for the longest instruction (R33, R50); addresses wrap (R13). -/
def State.fetchWords (s : State) : List Word :=
  [s.readMem s.pc, s.readMem (s.pc + 1), s.readMem (s.pc + 2)]

/-- Words written at rising addresses from `a` on, modulo 65536. -/
def State.placeWords (s : State) (a : Word) : List Word → State
  | [] => s
  | w :: rest => (s.writeMem a w).placeWords (a + 1) rest

/-- The launch (R246): the reset state with an IMAGE, as (first address, words) pieces, and a device set. -/
def State.launch (image : List (Word × List Word)) (devices : List Device) : State :=
  image.foldl (fun s piece => s.placeWords piece.1 piece.2) { State.reset with devices := devices.take 65535 }

end Sys2Proof.Machine
end

