-- ==== Sys2Proof/Machine/Flags.lean ====
section
/-! DEFINITION. The result word and the PS word of each computing instruction, on exact integers (41_binary_alu.md R122, R100 to R118). -/

namespace Sys2Proof.Machine

/-- What a computation delivers: the word for m and the word for PS. -/
structure WordAndPs where
  word : Word
  ps : Word
deriving DecidableEq, Repr

/-- ADD (R101): PS is 1 on a carry out of bit 15. -/
def addWords (m u : Word) : WordAndPs :=
  let s : Int := m.toNat + u.toNat
  { word := trunc16 s, ps := if s > 0xFFFF then 0x0001#16 else 0x0000#16 }

/-- SUB (R102): PS is 0xFFFF on a borrow. -/
def subWords (m u : Word) : WordAndPs :=
  let d : Int := m.toNat - u.toNat
  { word := trunc16 d, ps := if d < 0 then 0xFFFF#16 else 0x0000#16 }

/-- MUL (R103): bits 15:0 and 31:16 of the unsigned product. -/
def mulWords (m u : Word) : WordAndPs :=
  let p : Int := m.toNat * u.toNat
  { word := trunc16 p, ps := trunc16 (p / 65536) }

/-- MLI (R104): bits 15:0 and 31:16 of the signed product's 32-bit pattern. -/
def mliWords (m u : Word) : WordAndPs :=
  let pattern := (signed m * signed u) % 4294967296
  { word := trunc16 pattern, ps := trunc16 (pattern / 65536) }

/-- DIV (R105): unsigned quotient and its first 16 fraction bits; 0 and 0 when u is 0. -/
def divWords (m u : Word) : WordAndPs :=
  if u = 0#16 then { word := 0#16, ps := 0#16 }
  else { word := trunc16 ((m.toNat / u.toNat : Nat) : Int), ps := trunc16 ((m.toNat * 65536 / u.toNat : Nat) : Int) }

/-- DVI (R106): signed quotient and fraction, both rounded toward zero (decision D6); 0 and 0 when u is 0. -/
def dviWords (m u : Word) : WordAndPs :=
  if u = 0#16 then { word := 0#16, ps := 0#16 }
  else { word := trunc16 (Int.tdiv (signed m) (signed u)), ps := trunc16 (Int.tdiv (signed m * 65536) (signed u)) }

/-- MOD (R107): unsigned remainder; 0 when u is 0. -/
def modWord (m u : Word) : Word :=
  if u = 0#16 then 0#16 else trunc16 ((m.toNat % u.toNat : Nat) : Int)

/-- MDI (R108): remainder with the sign of the dividend (decision D6); 0 when u is 0. -/
def mdiWord (m u : Word) : Word :=
  if u = 0#16 then 0#16 else trunc16 (Int.tmod (signed m) (signed u))

/-- LLS (R112): bits 15:0 and 31:16 of `m * 2^u`, the count taken in full (decision D7). -/
def llsWords (m u : Word) : WordAndPs :=
  let t : Int := (m.toNat <<< u.toNat : Nat)
  { word := trunc16 t, ps := trunc16 (t / 65536) }

/-- LRS (R113): the upper and the lower word of `m * 65536` shifted right by u, zeros from the left (decision D7). -/
def lrsWords (m u : Word) : WordAndPs :=
  let t : Int := ((m.toNat * 65536) >>> u.toNat : Nat)
  { word := trunc16 (t / 65536), ps := trunc16 t }

/-- ARS (R114): the upper and the lower word of `signed(m) * 65536` shifted right by u, floor toward minus infinity (decision D7). -/
def arsWords (m u : Word) : WordAndPs :=
  let t : Int := (signed m * 65536) >>> u.toNat
  { word := trunc16 (t / 65536), ps := trunc16 t }

/-- `pin`: the incoming PS as ADX and SBX count it. The two readings of PS_IN_READING differ from 0x8000 up only (R117, R118). -/
def psIn (ps : Word) : Int :=
  if ps.toNat < 0x8000 then ps.toNat
  else
    match Config.psInReading with
    | .unsignedPs => ps.toNat
    | .signedPs => signed ps

/-- ADX (R117), `pin` being the incoming PS as read. -/
def adxWords (m u : Word) (pin : Int) : WordAndPs :=
  let s : Int := m.toNat + u.toNat + pin
  { word := trunc16 s, ps := if s > 0xFFFF then 0x0001#16 else 0x0000#16 }

/-- SBX (R118), `pin` being the incoming PS as read. -/
def sbxWords (m u : Word) (pin : Int) : WordAndPs :=
  let d : Int := m.toNat - u.toNat + pin
  { word := trunc16 d, ps := if d < 0 then 0xFFFF#16 else 0x0000#16 }

end Sys2Proof.Machine
end

