-- ==== Sys2Proof/Machine/Operands.lean ====
section
/-! DEFINITION. Operand resolution, reading and writing (40_operands.md R70 to R80). -/

namespace Sys2Proof.Machine

/-- A location descriptor (R70). -/
inductive Loc
  /-- General register. -/
  | reg (r : Reg)
  /-- The RAM word at an address. -/
  | mem (a : Word)
  /-- The stack pointer. -/
  | sp
  /-- The program counter. -/
  | pc
  /-- The program status register. -/
  | ps
  /-- A literal. -/
  | lit (v : Word)
deriving DecidableEq, Repr

/-- `ResolveU` (R72). The NEXT word comes with the instruction; fetching it moves PC on. -/
def resolveU (u : UOperand) (s : State) : Loc × State :=
  match u with
  | .reg r => (.reg r, s)
  | .mem r => (.mem (s.reg r), s)
  | .memNext r n => (.mem (s.reg r + n), s.advance)
  | .pop => (.mem s.sp, { s with sp := s.sp + 1 })
  | .peek => (.mem s.sp, s)
  | .pick n => (.mem (s.sp + n), s.advance)
  | .sp => (.sp, s)
  | .pc => (.pc, s)
  | .ps => (.ps, s)
  | .abs n => (.mem n, s.advance)
  | .next n => (.lit n, s.advance)
  | .lit v => (.lit v, s)

/-- `ResolveM` (R73): the upper table with a push for the pop and no short literals. -/
def resolveM (m : MOperand) (s : State) : Loc × State :=
  match m with
  | .reg r => (.reg r, s)
  | .mem r => (.mem (s.reg r), s)
  | .memNext r n => (.mem (s.reg r + n), s.advance)
  | .push => (.mem (s.sp - 1), { s with sp := s.sp - 1 })
  | .peek => (.mem s.sp, s)
  | .pick n => (.mem (s.sp + n), s.advance)
  | .sp => (.sp, s)
  | .pc => (.pc, s)
  | .ps => (.ps, s)
  | .abs n => (.mem n, s.advance)
  | .next n => (.lit n, s.advance)

/-- `ReadOp` (R74). -/
def readLoc (l : Loc) (s : State) : Word :=
  match l with
  | .reg r => s.reg r
  | .mem a => s.readMem a
  | .sp => s.sp
  | .pc => s.pc
  | .ps => s.ps
  | .lit v => v

/-- `WriteOp` (R75): a write to a literal does nothing. -/
def writeLoc (l : Loc) (v : Word) (s : State) : State :=
  match l with
  | .reg r => s.setReg r v
  | .mem a => s.writeMem a v
  | .sp => { s with sp := v }
  | .pc => { s with pc := v }
  | .ps => { s with ps := v }
  | .lit _ => s

/-- What a binary instruction has read before its body runs: u, m, the location of m, and the state, in which PC is the
address of the following instruction (R71, R77). -/
structure BinaryInputs where
  u : Word
  m : Word
  loc : Loc
  st : State
deriving DecidableEq, Repr

/-- The frame of a binary instruction (R71): the first word is passed, u is resolved and read, then m (decisions D1, D2). -/
def readBinary (m : MOperand) (u : UOperand) (s : State) : BinaryInputs :=
  let ru := resolveU u s.advance
  let rm := resolveM m ru.2
  { u := readLoc ru.1 ru.2, m := readLoc rm.1 rm.2, loc := rm.1, st := rm.2 }

/-- What a unary instruction has read before its body runs: u, its location, and the state (R169). -/
structure UnaryInputs where
  u : Word
  loc : Loc
  st : State
deriving DecidableEq, Repr

/-- The frame of a unary instruction (R71, R169): u is always resolved, with its side effects (decision D15). -/
def readUnary (u : UOperand) (s : State) : UnaryInputs :=
  let ru := resolveU u s.advance
  { u := readLoc ru.1 ru.2, loc := ru.1, st := ru.2 }

end Sys2Proof.Machine
end

