-- ==== Sys2Proof/Machine/Alu.lean ====
section
/-! DEFINITION. The 19 binary instructions that compute and store (41_binary_alu.md). -/

namespace Sys2Proof.Machine

/-- A result for m and none for PS: SET, MOD, MDI, AND, BOR, XOR (R16, R121). -/
def storeWord (f : Word → Word → Word) (m : MOperand) (u : UOperand) (s : State) : State :=
  let i := readBinary m u s
  writeLoc i.loc (f i.m i.u) i.st

/-- A result for m, then one for PS, computed from m, u and the incoming PS (R121). -/
def storeWordAndPs (f : Word → Word → Word → WordAndPs) (m : MOperand) (u : UOperand) (s : State) : State :=
  let i := readBinary m u s
  let r := f i.m i.u i.st.ps
  { writeLoc i.loc r.word i.st with ps := r.ps }

/-- I and J step by `d` from the values they hold at that moment (R119, R120, R121). -/
def stepIJ (d : Word) (s : State) : State := (s.setReg .i (s.reg .i + d)).setReg .j (s.reg .j + d)

/-- SET (R100). -/
def execSet (m : MOperand) (u : UOperand) (s : State) : Result := .next (storeWord (fun _ u => u) m u s)

/-- ADD (R101). -/
def execAdd (m : MOperand) (u : UOperand) (s : State) : Result := .next (storeWordAndPs (fun m u _ => addWords m u) m u s)

/-- SUB (R102). -/
def execSub (m : MOperand) (u : UOperand) (s : State) : Result := .next (storeWordAndPs (fun m u _ => subWords m u) m u s)

/-- MUL (R103). -/
def execMul (m : MOperand) (u : UOperand) (s : State) : Result := .next (storeWordAndPs (fun m u _ => mulWords m u) m u s)

/-- MLI (R104). -/
def execMli (m : MOperand) (u : UOperand) (s : State) : Result := .next (storeWordAndPs (fun m u _ => mliWords m u) m u s)

/-- DIV (R105). -/
def execDiv (m : MOperand) (u : UOperand) (s : State) : Result := .next (storeWordAndPs (fun m u _ => divWords m u) m u s)

/-- DVI (R106). -/
def execDvi (m : MOperand) (u : UOperand) (s : State) : Result := .next (storeWordAndPs (fun m u _ => dviWords m u) m u s)

/-- MOD (R107): PS stays, also when u is 0. -/
def execMod (m : MOperand) (u : UOperand) (s : State) : Result := .next (storeWord modWord m u s)

/-- MDI (R108): PS stays. -/
def execMdi (m : MOperand) (u : UOperand) (s : State) : Result := .next (storeWord mdiWord m u s)

/-- AND (R109). -/
def execAnd (m : MOperand) (u : UOperand) (s : State) : Result := .next (storeWord (fun m u => m &&& u) m u s)

/-- BOR (R110). -/
def execBor (m : MOperand) (u : UOperand) (s : State) : Result := .next (storeWord (fun m u => m ||| u) m u s)

/-- XOR (R111). -/
def execXor (m : MOperand) (u : UOperand) (s : State) : Result := .next (storeWord (fun m u => m ^^^ u) m u s)

/-- LLS (R112). -/
def execLls (m : MOperand) (u : UOperand) (s : State) : Result := .next (storeWordAndPs (fun m u _ => llsWords m u) m u s)

/-- LRS (R113). -/
def execLrs (m : MOperand) (u : UOperand) (s : State) : Result := .next (storeWordAndPs (fun m u _ => lrsWords m u) m u s)

/-- ARS (R114). -/
def execArs (m : MOperand) (u : UOperand) (s : State) : Result := .next (storeWordAndPs (fun m u _ => arsWords m u) m u s)

/-- ADX (R117). -/
def execAdx (m : MOperand) (u : UOperand) (s : State) : Result := .next (storeWordAndPs (fun m u ps => adxWords m u (psIn ps)) m u s)

/-- SBX (R118). -/
def execSbx (m : MOperand) (u : UOperand) (s : State) : Result := .next (storeWordAndPs (fun m u ps => sbxWords m u (psIn ps)) m u s)

/-- STI (R119). -/
def execSti (m : MOperand) (u : UOperand) (s : State) : Result := .next (stepIJ 1 (storeWord (fun _ u => u) m u s))

/-- STD (R120). -/
def execStd (m : MOperand) (u : UOperand) (s : State) : Result := .next (stepIJ (-1) (storeWord (fun _ u => u) m u s))

end Sys2Proof.Machine
end

