-- ==== Sys2Proof/Machine/Conditional.lean ====
section
/-! DEFINITION. The eight conditionals and the skip (42_binary_conditional.md). -/

namespace Sys2Proof.Machine

/-- The address after the instruction at `pc`, skipped without being executed (R141, R55). -/
def skipOne (mem : Memory) (pc : Word) : Word := pc + BitVec.ofNat 16 (instrLength (mem.read pc.toNat))

/-- The skip of R141, at most `fuel` instructions long: after a conditional one more is skipped.
`none` when each of them was a conditional. -/
def skipFrom (fuel : Nat) (mem : Memory) (pc : Word) : Option Word :=
  match fuel with
  | 0 => none
  | n + 1 => if isIf (mem.read pc.toNat) then skipFrom n mem (skipOne mem pc) else some (skipOne mem pc)

/-- After this many skipped conditionals the skip has come back to an address it started from, so it never ends
(log entry 12). -/
def skipFuel : Nat := 65536

/-- `Skip()` (R141): PC moves past the skipped instructions and nothing else changes; a skip without end is a stuck state. -/
def State.skip (s : State) : Result :=
  match skipFrom skipFuel s.mem s.pc with
  | some pc => .next { s with pc := pc }
  | none => .fault (.endlessSkip s)

/-- A conditional (R140): both operands are resolved and read, nothing is written; a failed test skips. -/
def conditional (test : Word → Word → Bool) (m : MOperand) (u : UOperand) (s : State) : Result :=
  let i := readBinary m u s
  if test i.m i.u then .next i.st else i.st.skip

/-- IFB (R142): some bit is set in both. -/
def execIfb (m : MOperand) (u : UOperand) (s : State) : Result := conditional (fun m u => (m &&& u) != 0#16) m u s

/-- IFC (R143): no bit is set in both. -/
def execIfc (m : MOperand) (u : UOperand) (s : State) : Result := conditional (fun m u => (m &&& u) == 0#16) m u s

/-- IFE (R144). -/
def execIfe (m : MOperand) (u : UOperand) (s : State) : Result := conditional (fun m u => m == u) m u s

/-- IFN (R145). -/
def execIfn (m : MOperand) (u : UOperand) (s : State) : Result := conditional (fun m u => m != u) m u s

/-- IFG (R146): unsigned. -/
def execIfg (m : MOperand) (u : UOperand) (s : State) : Result := conditional (fun m u => decide (m.toNat > u.toNat)) m u s

/-- IFA (R147): signed. -/
def execIfa (m : MOperand) (u : UOperand) (s : State) : Result := conditional (fun m u => decide (signed m > signed u)) m u s

/-- IFL (R148): unsigned. -/
def execIfl (m : MOperand) (u : UOperand) (s : State) : Result := conditional (fun m u => decide (m.toNat < u.toNat)) m u s

/-- IFU (R149): signed. -/
def execIfu (m : MOperand) (u : UOperand) (s : State) : Result := conditional (fun m u => decide (signed m < signed u)) m u s

end Sys2Proof.Machine
end

