-- ==== Sys2Proof/Machine/Hardware.lean ====
section
/-! DEFINITION. Hardware devices: what they do to the processor, and HWN, HWQ, HWI (43_unary.md R166 to R168, 60_exceptions.md R213 to R216). -/

namespace Sys2Proof.Machine

/-- What a device may read of the processor (R214). -/
def State.view (s : State) : View :=
  { regs := s.regs, pc := s.pc, sp := s.sp, ps := s.ps, ia := s.ia, mem := s.mem }

/-- One thing a device does to the processor (R214, R215). -/
def applyAction (act : DeviceAction) (s : State) : Result :=
  match act with
  | .setReg r v => .next (s.setReg r v)
  | .setPc v => .next { s with pc := v }
  | .setSp v => .next { s with sp := v }
  | .setPs v => .next { s with ps := v }
  | .setIa v => .next { s with ia := v }
  | .store a v => .next (s.writeMem a v)
  | .raise msg => s.enqueue msg

/-- Things devices do, in order, up to the first that sets the machine on fire. -/
def applyActions (acts : List DeviceAction) (s : State) : Result :=
  match acts with
  | [] => .next s
  | act :: rest =>
    match applyAction act s with
    | .next t => applyActions rest t
    | .fault f => .fault f
    | .refused r => .refused r

/-- Put a port into the rising list of activated ports (R23). -/
def insertPort : List Nat → Nat → List Nat
  | [], p => [p]
  | q :: rest, p => if p < q then p :: q :: rest else if p = q then q :: rest else q :: insertPort rest p

/-- The actions of devices that have received an HWI; what any other device would do is dropped (R214, R215, log entry 7). -/
def permitted (activated : List Nat) (moves : List (Nat × DeviceAction)) : List DeviceAction :=
  (moves.filter (fun mv => activated.contains mv.1)).map Prod.snd

/-- What the activated devices do between two processor steps (R214, R244): the schedule's next turn, or a free draw.
With no device activated nothing happens. -/
def deviceTurn (s : State) : Result :=
  match s.activated with
  | [] => .next s
  | _ :: _ =>
    match s.schedule with
    | moves :: rest => applyActions (permitted s.activated moves) { s with schedule := rest }
    | [] => applyActions (permitted s.activated (Config.spontaneous s.draws s.view)) { s with draws := s.draws + 1 }

/-- What device `d` on `port` answers to an HWI, and the state with that answer taken from its script, or drawn (R168). -/
def hwiAnswer (d : Device) (port : Nat) (s : State) : List DeviceAction × State :=
  match d.script with
  | acts :: rest => (acts, { s with devices := s.devices.set port { d with script := rest } })
  | [] => (Config.onHwi port s.draws s.view, { s with draws := s.draws + 1 })

/-- HWN (R166). -/
def execHwn (u : UOperand) (s : State) : Result :=
  let i := readUnary u s
  .next (writeLoc i.loc (BitVec.ofNat 16 i.st.devices.length) i.st)

/-- HWQ (R167): the device is not activated. -/
def execHwq (u : UOperand) (s : State) : Result :=
  let i := readUnary u s
  match i.st.devices[i.u.toNat]? with
  | some d => .next (((i.st.setReg .x d.manufacturer).setReg .y d.hardwareId).setReg .z d.version)
  | none => i.st.raise (.absentPort i.u)

/-- HWI (R168): the device is marked activated and acts, all within the instruction. -/
def execHwi (u : UOperand) (s : State) : Result :=
  let i := readUnary u s
  match i.st.devices[i.u.toNat]? with
  | some d =>
    let answer := hwiAnswer d i.u.toNat { i.st with activated := insertPort i.st.activated i.u.toNat }
    applyActions answer.1 answer.2
  | none => i.st.raise (.absentPort i.u)

end Sys2Proof.Machine
end

