-- ==== Sys2Proof/Machine/Nullary.lean ====
section
/-! DEFINITION. NOP, CLK, ERR (44_nullary.md R190 to R192). -/

namespace Sys2Proof.Machine

/-- NOP (R190). -/
def execNop (s : State) : Result := .next s.advance

/-- The reading that draw `n` gives a clock last read as `last`: free after an overflow, otherwise any value not below
`last` (R191, decision D18; log entry 9). -/
def clockDraw (n : Nat) (last : BitVec 32) : BitVec 32 × Bool :=
  let free := Config.clockReading n
  if Config.clockOverflow n then (free, true)
  else (BitVec.ofNat 32 (last.toNat + free.toNat % (2 ^ 32 - last.toNat)), false)

/-- CLK's effect for a reading T and its overflow flag (R191): I has the high half, J the low half, PS the flag. -/
def loadClock (t : BitVec 32) (ovf : Bool) (s : State) : State :=
  let r := (s.setReg .i (t.extractLsb' 16 16)).setReg .j (t.extractLsb' 0 16)
  { r with ps := if ovf then 0x0001#16 else 0x0000#16, clock := t }

/-- CLK (R191). -/
def execClk (s : State) : Result :=
  let d := clockDraw s.draws s.clock
  .next { loadClock d.1 d.2 s.advance with draws := s.draws + 1 }

/-- ERR (R192): the fault IllegalInstruction(0xFC00). -/
def execErr (s : State) : Result := s.raiseIllegal 0xFC00#16

end Sys2Proof.Machine
end

