-- ==== Sys2Proof/Machine/Unary.lean ====
section
/-! DEFINITION. Subroutine call and the interrupt instructions (43_unary.md R160 to R165). -/

namespace Sys2Proof.Machine

/-- JSR (R160): pushes the address of the following instruction, then jumps to u, read before the push. -/
def execJsr (u : UOperand) (s : State) : Result :=
  let i := readUnary u s
  .next { i.st.push i.st.pc with pc := i.u }

/-- INT (R161): the message enters the queue; a later step's dispatch triggers it (decision D12). -/
def execInt (u : UOperand) (s : State) : Result :=
  let i := readUnary u s
  i.st.enqueue i.u

/-- IAG (R162). -/
def execIag (u : UOperand) (s : State) : Result :=
  let i := readUnary u s
  .next (writeLoc i.loc i.st.ia i.st)

/-- IAS (R163). -/
def execIas (u : UOperand) (s : State) : Result :=
  let i := readUnary u s
  .next { i.st with ia := i.u }

/-- RFI (R164): u is resolved and its value ignored. -/
def execRfi (u : UOperand) (s : State) : Result := .next (readUnary u s).st.returnFromInterrupt

/-- IAQ (R165). -/
def execIaq (u : UOperand) (s : State) : Result :=
  let i := readUnary u s
  .next { i.st with queueing := i.u != 0#16 }

end Sys2Proof.Machine
end

