-- ==== Sys2Proof/Machine/Dispatch.lean ====
section
/-! DEFINITION. One arm per instruction: its meaning (30_encoding.md R57). -/

namespace Sys2Proof.Machine

def exec (i : Instr) (s : State) : Host.Outcome State Fault Refusal :=
  match i with
  | .set m u => Sys2Proof.Machine.execSet m u s
  | .add m u => Sys2Proof.Machine.execAdd m u s
  | .sub m u => Sys2Proof.Machine.execSub m u s
  | .mul m u => Sys2Proof.Machine.execMul m u s
  | .mli m u => Sys2Proof.Machine.execMli m u s
  | .div m u => Sys2Proof.Machine.execDiv m u s
  | .dvi m u => Sys2Proof.Machine.execDvi m u s
  | .mod m u => Sys2Proof.Machine.execMod m u s
  | .mdi m u => Sys2Proof.Machine.execMdi m u s
  | .and m u => Sys2Proof.Machine.execAnd m u s
  | .bor m u => Sys2Proof.Machine.execBor m u s
  | .xor m u => Sys2Proof.Machine.execXor m u s
  | .lls m u => Sys2Proof.Machine.execLls m u s
  | .lrs m u => Sys2Proof.Machine.execLrs m u s
  | .ars m u => Sys2Proof.Machine.execArs m u s
  | .ifb m u => Sys2Proof.Machine.execIfb m u s
  | .ifc m u => Sys2Proof.Machine.execIfc m u s
  | .ife m u => Sys2Proof.Machine.execIfe m u s
  | .ifn m u => Sys2Proof.Machine.execIfn m u s
  | .ifg m u => Sys2Proof.Machine.execIfg m u s
  | .ifa m u => Sys2Proof.Machine.execIfa m u s
  | .ifl m u => Sys2Proof.Machine.execIfl m u s
  | .ifu m u => Sys2Proof.Machine.execIfu m u s
  | .adx m u => Sys2Proof.Machine.execAdx m u s
  | .sbx m u => Sys2Proof.Machine.execSbx m u s
  | .sti m u => Sys2Proof.Machine.execSti m u s
  | .std m u => Sys2Proof.Machine.execStd m u s
  | .jsr u => Sys2Proof.Machine.execJsr u s
  | .int u => Sys2Proof.Machine.execInt u s
  | .iag u => Sys2Proof.Machine.execIag u s
  | .ias u => Sys2Proof.Machine.execIas u s
  | .rfi u => Sys2Proof.Machine.execRfi u s
  | .iaq u => Sys2Proof.Machine.execIaq u s
  | .hwn u => Sys2Proof.Machine.execHwn u s
  | .hwq u => Sys2Proof.Machine.execHwq u s
  | .hwi u => Sys2Proof.Machine.execHwi u s
  | .nop => Sys2Proof.Machine.execNop s
  | .clk => Sys2Proof.Machine.execClk s
  | .err => Sys2Proof.Machine.execErr s

end Sys2Proof.Machine
end

