-- ==== Sys2Proof/Machine/Step.lean ====
section
/-! DEFINITION. One step (00_scope.md R7, 70_reset_and_hazards.md R244), and where a table word is placed for it. -/

namespace Sys2Proof.Machine

/-- Fetch, decode and execute the instruction at PC (R7); a word that is no instruction is the fault of R58. -/
def runInstruction (s : State) : Host.Outcome State Fault Refusal :=
  match decode s.fetchWords with
  | .ok (i, _) => exec i s
  | .error _ => s.raiseIllegal (s.readMem s.pc)

/-- One step: from a fault there is none (R200); the devices' turn (R244), the interrupt dispatch (R206), one instruction (R7). -/
def step (s : State) : Host.Outcome State Fault Refusal :=
  match s.halted with
  | some h => .fault (h.fault s)
  | none =>
    match deviceTurn s with
    | .next t => runInstruction t.dispatch
    | .fault f => .fault f
    | .refused r => .refused r

/-- The table word placed where the next step fetches: at PC, or at the handler if the step's dispatch enters one.
The fault mark is cleared, since a marked machine fetches nothing. -/
def State.withFetchWord (s : State) (nbits w : Nat) : State :=
  { s with halted := none }.placeWords s.dispatch.pc (tableWords nbits w)

end Sys2Proof.Machine
end

