-- ==== Sys2Proof/Safety.lean ====
section
/-! DEFINITION. The terms statements are made in: the invariant of the machine, what stays the same, where a fault leaves it, and the
usual end of a run. -/

namespace Sys2Proof.Machine

/-- The identification words of a device, which no run changes (R213, R217). -/
def Device.ids (d : Device) : Word × Word × Word := (d.manufacturer, d.hardwareId, d.version)

/-- What holds of every state a run reaches: RAM in canonical form (R30), at most 256 messages in the queue (R20, R205), no fault mark
(R200), at most 65535 devices (R3), and the activated ports rising and each the port of a device (R23). -/
abbrev State.Inv (s : State) : Prop :=
  s.mem.wf = true ∧ s.queue.length ≤ 256 ∧ s.halted = none ∧ s.devices.length ≤ 65535 ∧
    s.activated.Pairwise (· < ·) ∧ ∀ p ∈ s.activated, p < s.devices.length

/-- Every word of RAM reads the same. -/
def State.SameRam (s t : State) : Prop := ∀ a : Word, t.readMem a = s.readMem a

/-- Every word of RAM reads the same but the one at `a`. -/
def State.SameRamBut (s t : State) (a : Word) : Prop := ∀ b : Word, b ≠ a → t.readMem b = s.readMem b

/-- Every general register is the same. -/
def State.SameRegs (s t : State) : Prop := ∀ r : Reg, t.reg r = s.reg r

/-- The devices, their marks and the model's own fields are the same. -/
abbrev State.SameDevices (s t : State) : Prop :=
  t.devices = s.devices ∧ t.activated = s.activated ∧ t.schedule = s.schedule ∧ t.draws = s.draws

/-- The interrupt state is the same: IA, the queue, the queueing flag (R18, R20, R21). -/
abbrev State.SameInterrupts (s t : State) : Prop :=
  t.ia = s.ia ∧ t.queue = s.queue ∧ t.queueing = s.queueing

/-- The state a fault leaves (R200). -/
def Fault.left : Fault → State
  | .onFire t => t
  | .illegalInstruction _ t => t
  | .absentPort _ t => t
  | .endlessSkip t => t

/-- The messages a list of device actions raises, in order (R215). -/
def raisedBy : List DeviceAction → List Word
  | [] => []
  | .raise msg :: rest => msg :: raisedBy rest
  | _ :: rest => raisedBy rest

/-- Every first word whose lower field is `op` decodes to a binary instruction of constructor `mk` (R52, R57). -/
def BinaryEncoding (op : Nat) (mk : MOperand → UOperand → Instr) : Prop :=
  ∀ w a b : Word, w.toNat % 32 = op → ∃ m u rest, decode [w, a, b] = .ok (mk m u, rest)

/-- Every first word whose lower field is 0 and whose middle field is `op` decodes to a unary instruction of constructor `mk`
(R53, R57). -/
def UnaryEncoding (op : Nat) (mk : UOperand → Instr) : Prop :=
  ∀ w a b : Word, w.toNat % 1024 = op * 32 → ∃ u rest, decode [w, a, b] = .ok (mk u, rest)

/-- The general register of a number 0 to 7 (R10). -/
def regNumber (k : Nat) : Reg := [Reg.a, .b, .c, .x, .y, .z, .i, .j].getD k .a

/-- An operand code has a NEXT (R55), as the spec writes it. -/
abbrev CodeHasNext (c : Nat) : Prop := (0x10 ≤ c ∧ c ≤ 0x17) ∨ c = 0x1A ∨ c = 0x1E ∨ c = 0x1F

/-- `Length(w)` (R55), as the spec writes it. -/
def lengthOf (w : Nat) : Nat :=
  if w % 32 ≠ 0 then 1 + (if CodeHasNext (w / 1024) then 1 else 0) + (if CodeHasNext (w / 32 % 32) then 1 else 0)
  else if w / 32 % 32 ≠ 0 then 1 + (if CodeHasNext (w / 1024) then 1 else 0)
  else 1

/-- The reserved first words (R58), as the spec lists them. -/
abbrev ReservedWord (w : Nat) : Prop :=
  (w % 32 = 0x18 ∨ w % 32 = 0x19 ∨ w % 32 = 0x1C ∨ w % 32 = 0x1D) ∨
    (w % 32 = 0 ∧ ((2 ≤ w / 32 % 32 ∧ w / 32 % 32 ≤ 7) ∨ (0x0D ≤ w / 32 % 32 ∧ w / 32 % 32 ≤ 0x0F) ∨
      (0x13 ≤ w / 32 % 32 ∧ w / 32 % 32 ≤ 0x1F))) ∨
    (w % 1024 = 0 ∧ 2 ≤ w / 1024 ∧ w / 1024 ≤ 0x3E)

/-- A first word of a conditional (R141, IsIf), as the spec writes it. -/
abbrev IfWord (w : Nat) : Prop := 0x10 ≤ w % 32 ∧ w % 32 ≤ 0x17

/-- The addresses a skip passes (R141): from the address of an instruction to the address after it. -/
def State.after (s : State) (pc : Word) : Word := pc + BitVec.ofNat 16 (lengthOf (s.readMem pc).toNat)

/-- SP after the operands of a binary instruction (R72, R73): a pop increments it, then a push decrements it. -/
def spAfter (m : MOperand) (u : UOperand) (sp : Word) : Word :=
  let afterU := if u = .pop then sp + 1#16 else sp
  if m = .push then afterU - 1#16 else afterU

/-- SP after the operand of a unary instruction (R72). -/
def spAfterU (u : UOperand) (sp : Word) : Word := if u = .pop then sp + 1#16 else sp

/-- The address of the instruction after a binary one (R12, R55). -/
def nextAddress (m : MOperand) (u : UOperand) (pc : Word) : Word :=
  pc + BitVec.ofNat 16 (1 + u.nextWords.length + m.nextWords.length)

/-- The address of the instruction after a unary one (R12, R55). -/
def nextAddressU (u : UOperand) (pc : Word) : Word := pc + BitVec.ofNat 16 (1 + u.nextWords.length)

/-- The usual END_OF_RUN (R245): the one-word jump to itself `SUB PC, 1` stands at PC, no handler can be entered (the queue is empty, or
queueing is on, or IA is 0, so that waiting messages are only discarded), no fault (log entry 29). -/
abbrev State.AtSelfLoop (s : State) : Prop :=
  s.readMem s.pc = 0x8B83#16 ∧ (s.queue = [] ∨ s.queueing = true ∨ s.ia = 0#16) ∧ s.halted = none

end Sys2Proof.Machine
end

