-- ==== Sys2Proof/Certificates/Slice0/Obligations.lean ====
section
/-! DEFINITION. The statements for the provers. Each is about every state unless it says otherwise; `readBinary m u s` and
`readUnary u s` are what the meanings themselves read first (u, m, the location of m or u, and the state in which PC is the
address of the following instruction), and `UpperOperandCodes`, `MiddleOperandCodes` and `OperandsAreReadInOrder` say what they do. -/

open Sys2Proof Sys2Proof.Machine

/-! ## Reset, invariant -/

/-- R24, R240, R25: the reset values are the spec's decisions D11 and D24, which the source does not give. -/
def Obligations.ResetLeavesZeros : Prop :=
  (∀ r, State.reset.reg r = 0#16) ∧ State.reset.pc = 0#16 ∧ State.reset.sp = 0#16 ∧ State.reset.ps = 0#16 ∧
    State.reset.ia = 0#16 ∧ State.reset.queue = [] ∧ State.reset.queueing = false ∧ State.reset.halted = none ∧
    State.reset.activated = [] ∧
    ∀ v, (State.reset.push v).sp = 0xFFFF#16 ∧ (State.reset.push v).readMem 0xFFFF#16 = v

/-- The invariant holds after reset. -/
def Obligations.ResetMeetsInvariant : Prop := State.reset.Inv

/-- Every step keeps the invariant: canonical RAM (R30), at most 256 messages (R205), no fault mark on a next state (R200),
at most 65535 devices (R3), activated ports that are ports (R23). -/
def Obligations.StepKeepsInvariant : Prop :=
  ∀ s t, s.Inv → step s = .next t → t.Inv

/-! ## Encoding -/

/-- The worked encodings of 30_encoding.md section 6, each word list decoded. -/
def Obligations.WorkedEncodingsDecode : Prop :=
  decode [0x7C01#16, 0x0030#16] = .ok (.set (.reg .a) (.next 0x30#16), []) ∧
  decode [0x9801#16] = .ok (.set (.reg .a) (.lit 5#16), []) ∧
  decode [0x7FC1#16, 0x0020#16, 0x1000#16] = .ok (.set (.abs 0x1000#16) (.next 0x20#16), []) ∧
  decode [0x6302#16] = .ok (.add .push .pop, []) ∧
  decode [0x4412#16, 0x0002#16] = .ok (.ife (.reg .a) (.memNext .b 2#16), []) ∧
  decode [0x8B83#16] = .ok (.sub .pc (.lit 1#16), []) ∧
  decode [0x7C20#16, 0x0100#16] = .ok (.jsr (.next 0x100#16), []) ∧
  decode [0x7D40#16, 0x0020#16] = .ok (.ias (.next 0x20#16), []) ∧
  decode [0x8560#16] = .ok (.rfi (.lit 0#16), []) ∧
  decode [0x0000#16] = .ok (.nop, []) ∧
  decode [0x0400#16] = .ok (.clk, [])

/-- Decoding what was encoded gives the instruction back, with every operand at every value, whatever words follow. -/
def Obligations.DecodeAfterEncode : Prop :=
  ∀ i rest, i.wellFormed = true → decode (encode i ++ rest) = .ok (i, rest)

/-- What the decoder reads is well-formed and encodes to exactly the words it read: each word has one meaning. -/
def Obligations.EncodeAfterDecode : Prop :=
  ∀ ws i rest, decode ws = .ok (i, rest) → i.wellFormed = true ∧ encode i ++ rest = ws

/-- R58: with its NEXT words there, a first word is refused exactly if it is in the spec's list of reserved words. -/
def Obligations.ReservedWordsAreRefused : Prop :=
  ∀ w a b rest, (∃ e, decode (w :: a :: b :: rest) = .error e) ↔ ReservedWord w.toNat

/-- R55: the first word alone tells how many words the decoder takes, and the model's Length is the spec's on every word,
reserved ones too (decision D9). -/
def Obligations.FirstWordTellsLength : Prop :=
  (∀ w, instrLength w = lengthOf w.toNat) ∧
    ∀ w ws i rest, decode (w :: ws) = .ok (i, rest) → ws.length + 1 = rest.length + lengthOf w.toNat

/-! ## Operands -/

/-- R72: what each of the 64 upper codes resolves to, and that exactly the codes with a NEXT take the next word. -/
def Obligations.UpperOperandCodes : Prop :=
  ∀ (c : BitVec 6) (n : Word) (rest : List Word) (s : State), ∃ u,
    decodeU c (n :: rest) = .ok (u, if CodeHasNext c.toNat then rest else n :: rest) ∧
    resolveU u s =
      (let k := c.toNat
       let fetched := { s with pc := s.pc + 1#16 }
       if k ≤ 0x07 then (.reg (regNumber k), s)
       else if k ≤ 0x0F then (.mem (s.reg (regNumber (k - 0x08))), s)
       else if k ≤ 0x17 then (.mem (s.reg (regNumber (k - 0x10)) + n), fetched)
       else if k = 0x18 then (.mem s.sp, { s with sp := s.sp + 1#16 })
       else if k = 0x19 then (.mem s.sp, s)
       else if k = 0x1A then (.mem (s.sp + n), fetched)
       else if k = 0x1B then (.sp, s)
       else if k = 0x1C then (.pc, s)
       else if k = 0x1D then (.ps, s)
       else if k = 0x1E then (.mem n, fetched)
       else if k = 0x1F then (.lit n, fetched)
       else (.lit (BitVec.ofNat 16 (k + 0xFFDF)), s))

/-- R73: what each of the 32 middle codes resolves to. -/
def Obligations.MiddleOperandCodes : Prop :=
  ∀ (c : BitVec 5) (n : Word) (rest : List Word) (s : State), ∃ m,
    decodeM c (n :: rest) = .ok (m, if CodeHasNext c.toNat then rest else n :: rest) ∧
    resolveM m s =
      (let k := c.toNat
       let fetched := { s with pc := s.pc + 1#16 }
       if k ≤ 0x07 then (.reg (regNumber k), s)
       else if k ≤ 0x0F then (.mem (s.reg (regNumber (k - 0x08))), s)
       else if k ≤ 0x17 then (.mem (s.reg (regNumber (k - 0x10)) + n), fetched)
       else if k = 0x18 then (.mem (s.sp - 1#16), { s with sp := s.sp - 1#16 })
       else if k = 0x19 then (.mem s.sp, s)
       else if k = 0x1A then (.mem (s.sp + n), fetched)
       else if k = 0x1B then (.sp, s)
       else if k = 0x1C then (.pc, s)
       else if k = 0x1D then (.ps, s)
       else if k = 0x1E then (.mem n, fetched)
       else (.lit n, fetched))

/-- R71, R77 (decisions D1, D2): u is resolved and read before m, and PC and SP read as they are at that moment. -/
def Obligations.OperandsAreReadInOrder : Prop :=
  ∀ s : State,
    exec (.set .push .sp) s =
      .next { s with pc := s.pc + 1#16, sp := s.sp - 1#16, mem := s.mem.write (s.sp - 1#16).toNat s.sp } ∧
    exec (.set .sp .pop) s = .next { s with pc := s.pc + 1#16, sp := s.readMem s.sp } ∧
    exec (.set .peek .pop) s =
      .next { s with pc := s.pc + 1#16, sp := s.sp + 1#16, mem := s.mem.write (s.sp + 1#16).toNat (s.readMem s.sp) } ∧
    (∀ n, exec (.set (.abs n) .pc) s =
      .next { s with pc := s.pc + 2#16, mem := s.mem.write n.toNat (s.pc + 1#16) }) ∧
    (∀ n, exec (.add .pc (.next n)) s =
      .next { s with pc := s.pc + 2#16 + n, ps := if (s.pc + 2#16).toNat + n.toNat > 0xFFFF then 1#16 else 0#16 }) ∧
    exec (.add .push .pop) s =
      .next { s with
        pc := s.pc + 1#16
        ps := if (s.readMem s.sp).toNat + (s.readMem s.sp).toNat > 0xFFFF then 1#16 else 0#16
        mem := s.mem.write s.sp.toNat (s.readMem s.sp + s.readMem s.sp) }

/-- R72, R74, R100: SET of a register from every upper form, the whole next state written out. -/
def Obligations.SetReadsEveryUpperForm : Prop :=
  ∀ (r q : Reg) (n : Word) (s : State),
    exec (.set (.reg r) (.reg q)) s = .next { s with pc := s.pc + 1#16, regs := s.regs.set r (s.reg q) } ∧
    exec (.set (.reg r) (.mem q)) s = .next { s with pc := s.pc + 1#16, regs := s.regs.set r (s.readMem (s.reg q)) } ∧
    exec (.set (.reg r) (.memNext q n)) s =
      .next { s with pc := s.pc + 2#16, regs := s.regs.set r (s.readMem (s.reg q + n)) } ∧
    exec (.set (.reg r) .pop) s =
      .next { s with pc := s.pc + 1#16, sp := s.sp + 1#16, regs := s.regs.set r (s.readMem s.sp) } ∧
    exec (.set (.reg r) .peek) s = .next { s with pc := s.pc + 1#16, regs := s.regs.set r (s.readMem s.sp) } ∧
    exec (.set (.reg r) (.pick n)) s = .next { s with pc := s.pc + 2#16, regs := s.regs.set r (s.readMem (s.sp + n)) } ∧
    exec (.set (.reg r) .sp) s = .next { s with pc := s.pc + 1#16, regs := s.regs.set r s.sp } ∧
    exec (.set (.reg r) .pc) s = .next { s with pc := s.pc + 1#16, regs := s.regs.set r (s.pc + 1#16) } ∧
    exec (.set (.reg r) .ps) s = .next { s with pc := s.pc + 1#16, regs := s.regs.set r s.ps } ∧
    exec (.set (.reg r) (.abs n)) s = .next { s with pc := s.pc + 2#16, regs := s.regs.set r (s.readMem n) } ∧
    exec (.set (.reg r) (.next n)) s = .next { s with pc := s.pc + 2#16, regs := s.regs.set r n } ∧
    exec (.set (.reg r) (.lit n)) s = .next { s with pc := s.pc + 1#16, regs := s.regs.set r n }

/-- R73, R75, R100: SET of every middle form from a register, the whole next state written out; to a literal nothing is written. -/
def Obligations.SetWritesEveryMiddleForm : Prop :=
  ∀ (r q : Reg) (n : Word) (s : State),
    exec (.set (.mem r) (.reg q)) s = .next { s with pc := s.pc + 1#16, mem := s.mem.write (s.reg r).toNat (s.reg q) } ∧
    exec (.set (.memNext r n) (.reg q)) s =
      .next { s with pc := s.pc + 2#16, mem := s.mem.write (s.reg r + n).toNat (s.reg q) } ∧
    exec (.set .push (.reg q)) s =
      .next { s with pc := s.pc + 1#16, sp := s.sp - 1#16, mem := s.mem.write (s.sp - 1#16).toNat (s.reg q) } ∧
    exec (.set .peek (.reg q)) s = .next { s with pc := s.pc + 1#16, mem := s.mem.write s.sp.toNat (s.reg q) } ∧
    exec (.set (.pick n) (.reg q)) s =
      .next { s with pc := s.pc + 2#16, mem := s.mem.write (s.sp + n).toNat (s.reg q) } ∧
    exec (.set .sp (.reg q)) s = .next { s with pc := s.pc + 1#16, sp := s.reg q } ∧
    exec (.set .pc (.reg q)) s = .next { s with pc := s.reg q } ∧
    exec (.set .ps (.reg q)) s = .next { s with pc := s.pc + 1#16, ps := s.reg q } ∧
    exec (.set (.abs n) (.reg q)) s = .next { s with pc := s.pc + 2#16, mem := s.mem.write n.toNat (s.reg q) } ∧
    exec (.set (.next n) (.reg q)) s = .next { s with pc := s.pc + 2#16 }

/-! ## RAM -/

/-- R30: a read returns the word last written there, and a write changes that word only; at PC the written word is what is
fetched next (R41). -/
def Obligations.RamReadsLastWrite : Prop :=
  (∀ (s : State) (a b v : Word), (s.writeMem a v).readMem b = if b = a then v else s.readMem b) ∧
    ∀ (s : State) (v : Word), (s.writeMem s.pc v).fetchWords.head? = some v

/-- Two memories in canonical form that read alike are the same list: equal RAM is equal data. -/
def Obligations.CanonicalRamIsUnique : Prop :=
  ∀ m n : Memory, m.wf = true → n.wf = true → (∀ a, m.read a = n.read a) → m = n

/-! ## Instructions that compute and store -/

/-- R100: SET stores u at m. -/
def Obligations.SetStoresU : Prop :=
  BinaryEncoding 0x01 .set ∧
  ∀ m u s, let i := readBinary m u s
    exec (.set m u) s = .next (writeLoc i.loc i.u i.st)

/-- R101, R102: sum and difference modulo 65536; PS by carry and borrow (decision D4: unsigned), written after m (decision D8). -/
def Obligations.AddAndSubWithCarry : Prop :=
  BinaryEncoding 0x02 .add ∧ BinaryEncoding 0x03 .sub ∧
  ∀ m u s, let i := readBinary m u s
    exec (.add m u) s =
      .next { writeLoc i.loc (i.m + i.u) i.st with ps := if i.m.toNat + i.u.toNat > 0xFFFF then 1#16 else 0#16 } ∧
    exec (.sub m u) s =
      .next { writeLoc i.loc (i.m - i.u) i.st with ps := if i.m.toNat < i.u.toNat then 0xFFFF#16 else 0#16 }

/-- R103, R104: the low half of the product goes to m, the high half to PS; MUL unsigned, MLI signed. -/
def Obligations.MulAndMliSplitTheProduct : Prop :=
  BinaryEncoding 0x04 .mul ∧ BinaryEncoding 0x05 .mli ∧
  ∀ m u s, let i := readBinary m u s
    let p : BitVec 32 := i.m.zeroExtend 32 * i.u.zeroExtend 32
    let q : BitVec 32 := i.m.signExtend 32 * i.u.signExtend 32
    exec (.mul m u) s = .next { writeLoc i.loc (p.extractLsb' 0 16) i.st with ps := p.extractLsb' 16 16 } ∧
    exec (.mli m u) s = .next { writeLoc i.loc (q.extractLsb' 0 16) i.st with ps := q.extractLsb' 16 16 }

/-- R105, R107: unsigned quotient with the first 16 fraction bits in PS, and unsigned remainder with PS unchanged;
by zero both give 0 and nothing stops. -/
def Obligations.DivAndModAreUnsigned : Prop :=
  BinaryEncoding 0x06 .div ∧ BinaryEncoding 0x08 .mod ∧
  ∀ m u s, let i := readBinary m u s
    (i.u = 0#16 → exec (.div m u) s = .next { writeLoc i.loc 0#16 i.st with ps := 0#16 } ∧
      exec (.mod m u) s = .next (writeLoc i.loc 0#16 i.st)) ∧
    (i.u ≠ 0#16 →
      exec (.div m u) s =
        .next { writeLoc i.loc (i.m / i.u) i.st with ps := BitVec.ofNat 16 (i.m.toNat * 65536 / i.u.toNat) } ∧
      exec (.mod m u) s = .next (writeLoc i.loc (i.m % i.u) i.st))

/-- R106, R108: signed quotient and fraction rounded toward zero, signed remainder with the sign of the dividend (decision D6);
by zero both give 0. -/
def Obligations.DviAndMdiTruncate : Prop :=
  BinaryEncoding 0x07 .dvi ∧ BinaryEncoding 0x09 .mdi ∧
  ∀ m u s, let i := readBinary m u s
    (i.u = 0#16 → exec (.dvi m u) s = .next { writeLoc i.loc 0#16 i.st with ps := 0#16 } ∧
      exec (.mdi m u) s = .next (writeLoc i.loc 0#16 i.st)) ∧
    (i.u ≠ 0#16 →
      exec (.dvi m u) s =
        .next { writeLoc i.loc (i.m.sdiv i.u) i.st with
          ps := BitVec.ofInt 16 ((i.m.toInt * 65536).tdiv i.u.toInt) } ∧
      exec (.mdi m u) s = .next (writeLoc i.loc (i.m.srem i.u) i.st))

/-- R109, R110, R111: the bitwise operations; PS changes only if it is m. -/
def Obligations.LogicIsBitwise : Prop :=
  BinaryEncoding 0x0A .and ∧ BinaryEncoding 0x0B .bor ∧ BinaryEncoding 0x0C .xor ∧
  ∀ m u s, let i := readBinary m u s
    exec (.and m u) s = .next (writeLoc i.loc (i.m &&& i.u) i.st) ∧
    exec (.bor m u) s = .next (writeLoc i.loc (i.m ||| i.u) i.st) ∧
    exec (.xor m u) s = .next (writeLoc i.loc (i.m ^^^ i.u) i.st)

/-- R112, R113, R114: the 32-bit shift whose halves are m and PS, for every count (decision D7: the count is taken in full). -/
def Obligations.ShiftsFillPs : Prop :=
  BinaryEncoding 0x0D .lls ∧ BinaryEncoding 0x0E .lrs ∧ BinaryEncoding 0x0F .ars ∧
  ∀ m u s, let i := readBinary m u s
    let l : BitVec 32 := i.m.zeroExtend 32 <<< i.u.toNat
    let r : BitVec 32 := (i.m ++ 0#16) >>> i.u.toNat
    let a : BitVec 32 := (i.m ++ 0#16).sshiftRight i.u.toNat
    exec (.lls m u) s = .next { writeLoc i.loc (l.extractLsb' 0 16) i.st with ps := l.extractLsb' 16 16 } ∧
    exec (.lrs m u) s = .next { writeLoc i.loc (r.extractLsb' 16 16) i.st with ps := r.extractLsb' 0 16 } ∧
    exec (.ars m u) s = .next { writeLoc i.loc (a.extractLsb' 16 16) i.st with ps := a.extractLsb' 0 16 }

/-- R117, R118 (decision D5): the word is m + u + PS, m - u + PS modulo 65536 under either reading; PS by the exact value under the
reading the system has, which is open. -/
def Obligations.AdxAndSbxTakePsIn : Prop :=
  BinaryEncoding 0x1A .adx ∧ BinaryEncoding 0x1B .sbx ∧
  ∀ m u s, let i := readBinary m u s
    let pin : Int := match Config.psInReading with
      | .unsignedPs => (s.ps.toNat : Int)
      | .signedPs => s.ps.toInt
    exec (.adx m u) s =
      .next { writeLoc i.loc (i.m + i.u + s.ps) i.st with
        ps := if (i.m.toNat : Int) + i.u.toNat + pin > 0xFFFF then 1#16 else 0#16 } ∧
    exec (.sbx m u) s =
      .next { writeLoc i.loc (i.m - i.u + s.ps) i.st with
        ps := if (i.m.toNat : Int) - i.u.toNat + pin < 0 then 0xFFFF#16 else 0#16 }

/-- R119, R120: u is stored at m, then I and J step from the values they hold after the store (decision D8), wrapping (decision D3). -/
def Obligations.StiAndStdStepIJ : Prop :=
  BinaryEncoding 0x1E .sti ∧ BinaryEncoding 0x1F .std ∧
  ∀ m u s, let i := readBinary m u s
    let t := writeLoc i.loc i.u i.st
    exec (.sti m u) s = .next { t with regs := { t.regs with i := t.regs.i + 1#16, j := t.regs.j + 1#16 } } ∧
    exec (.std m u) s = .next { t with regs := { t.regs with i := t.regs.i - 1#16, j := t.regs.j - 1#16 } }

/-! ## Conditionals -/

/-- R142 to R150: each conditional ends with the operands read if its test holds, and skips if it does not.
The tests are the spec's: IFB, IFC on the bitwise and, IFE, IFN on equality, IFG, IFL unsigned, IFA, IFU signed. -/
def Obligations.ConditionalsTestAndSkip : Prop :=
  (BinaryEncoding 0x10 .ifb ∧ BinaryEncoding 0x11 .ifc ∧ BinaryEncoding 0x12 .ife ∧ BinaryEncoding 0x13 .ifn ∧
    BinaryEncoding 0x14 .ifg ∧ BinaryEncoding 0x15 .ifa ∧ BinaryEncoding 0x16 .ifl ∧ BinaryEncoding 0x17 .ifu) ∧
  ∀ m u s, let i := readBinary m u s
    (i.m &&& i.u ≠ 0#16 → exec (.ifb m u) s = .next i.st ∧ exec (.ifc m u) s = i.st.skip) ∧
    (i.m &&& i.u = 0#16 → exec (.ifc m u) s = .next i.st ∧ exec (.ifb m u) s = i.st.skip) ∧
    (i.m = i.u → exec (.ife m u) s = .next i.st ∧ exec (.ifn m u) s = i.st.skip) ∧
    (i.m ≠ i.u → exec (.ifn m u) s = .next i.st ∧ exec (.ife m u) s = i.st.skip) ∧
    (i.m.toNat > i.u.toNat → exec (.ifg m u) s = .next i.st) ∧
    (i.m.toNat ≤ i.u.toNat → exec (.ifg m u) s = i.st.skip) ∧
    (i.m.toInt > i.u.toInt → exec (.ifa m u) s = .next i.st) ∧
    (i.m.toInt ≤ i.u.toInt → exec (.ifa m u) s = i.st.skip) ∧
    (i.m.toNat < i.u.toNat → exec (.ifl m u) s = .next i.st) ∧
    (i.m.toNat ≥ i.u.toNat → exec (.ifl m u) s = i.st.skip) ∧
    (i.m.toInt < i.u.toInt → exec (.ifu m u) s = .next i.st) ∧
    (i.m.toInt ≥ i.u.toInt → exec (.ifu m u) s = i.st.skip)

/-- R141 (decision D9): a skip passes conditionals until the first word that is none, and that one too; PC ends after it and
nothing else changes. `n` conditionals are passed before it, for every `n`. -/
def Obligations.SkipPassesAChain : Prop :=
  ∀ (s : State) (n : Nat),
    (∀ k < n, IfWord (s.readMem (s.after^[k] s.pc)).toNat) → ¬ IfWord (s.readMem (s.after^[n] s.pc)).toNat →
      s.skip = .next { s with pc := s.after^[n + 1] s.pc }

/-- Log entry 12: the skip of R141 never ends exactly if every word it meets is a conditional. -/
def Obligations.SkipWithoutEndIsStuck : Prop :=
  ∀ s : State, s.skip = .fault (.endlessSkip s) ↔ ∀ k, IfWord (s.readMem (s.after^[k] s.pc)).toNat

/-! ## Subroutines, interrupts, hardware -/

/-- R160: JSR pushes the address of the following instruction and jumps to u, read before the push. -/
def Obligations.JsrPushesAndJumps : Prop :=
  UnaryEncoding 0x01 .jsr ∧
  ∀ u s, let i := readUnary u s
    exec (.jsr u) s =
      .next { s with
        pc := i.u
        sp := spAfterU u s.sp - 1#16
        mem := s.mem.write (spAfterU u s.sp - 1#16).toNat (nextAddressU u s.pc) }

/-- R161, R204, R205 (decision D12): INT adds its message to the queue; on a full queue it sets the machine on fire. -/
def Obligations.IntQueuesItsMessage : Prop :=
  UnaryEncoding 0x08 .int ∧
  ∀ u s, let i := readUnary u s
    (s.queue.length < 256 → exec (.int u) s = .next { i.st with queue := s.queue ++ [i.u] }) ∧
    (s.queue.length ≥ 256 → exec (.int u) s = .fault (.onFire { i.st with halted := some .onFire }))

/-- R162, R163, R165: IAG writes IA to u, IAS writes u to IA, IAQ sets queueing on exactly if u is nonzero. -/
def Obligations.InterruptRegistersReadAndWrite : Prop :=
  UnaryEncoding 0x09 .iag ∧ UnaryEncoding 0x0A .ias ∧ UnaryEncoding 0x0C .iaq ∧
  ∀ u s, let i := readUnary u s
    exec (.iag u) s = .next (writeLoc i.loc s.ia i.st) ∧
    exec (.ias u) s = .next { i.st with ia := i.u } ∧
    (i.u ≠ 0#16 → exec (.iaq u) s = .next { i.st with queueing := true }) ∧
    (i.u = 0#16 → exec (.iaq u) s = .next { i.st with queueing := false })

/-- R164 (decision D15: the operand is resolved): RFI turns queueing off, pops A, pops PC. -/
def Obligations.RfiPopsAAndPc : Prop :=
  UnaryEncoding 0x0B .rfi ∧
  ∀ u s, let sp := spAfterU u s.sp
    exec (.rfi u) s =
      .next { s with
        queueing := false
        regs := s.regs.set .a (s.readMem sp)
        pc := s.readMem (sp + 1#16)
        sp := sp + 2#16 }

/-- R166: HWN writes the number of connected devices to u. -/
def Obligations.HwnCountsDevices : Prop :=
  UnaryEncoding 0x10 .hwn ∧
  ∀ u s, let i := readUnary u s
    exec (.hwn u) s = .next (writeLoc i.loc (BitVec.ofNat 16 s.devices.length) i.st)

/-- R167, R216 (decision D16: ports from 0, the fault for an absent port): HWQ puts the identification of the device at
port u into X, Y, Z. -/
def Obligations.HwqIdentifiesTheDevice : Prop :=
  UnaryEncoding 0x11 .hwq ∧
  ∀ u s, let i := readUnary u s
    (∀ d, s.devices[i.u.toNat]? = some d → exec (.hwq u) s =
      .next { i.st with regs := { s.regs with x := d.manufacturer, y := d.hardwareId, z := d.version } }) ∧
    (s.devices.length ≤ i.u.toNat → exec (.hwq u) s =
      .fault (.absentPort i.u { i.st with halted := some (.absentPort i.u) }))

/-- R168, R214, R215 (decisions D16, D17, D25): HWI of a connected device, whose next answer raises no more interrupts than the queue has
room for, completes: the device is marked, its messages are in the queue in order, and what no device may change has not changed.
HWI of an absent port is the fault; HWI of a device that does nothing changes nothing else.
The answer a device has ready is the model's own field `script` (log entry 6). -/
def Obligations.HwiCallsTheDevice : Prop :=
  UnaryEncoding 0x12 .hwi ∧
  ∀ u s, let i := readUnary u s
    (∀ d acts rest, s.devices[i.u.toNat]? = some d → d.script = acts :: rest →
      s.queue.length + (raisedBy acts).length ≤ 256 →
        ∃ t, exec (.hwi u) s = .next t ∧ t.queue = s.queue ++ raisedBy acts ∧ i.u.toNat ∈ t.activated ∧
          (∀ p, p ∈ t.activated ↔ p = i.u.toNat ∨ p ∈ s.activated) ∧
          t.devices = s.devices.set i.u.toNat { d with script := rest } ∧
          t.queueing = s.queueing ∧ t.halted = s.halted ∧ t.clock = s.clock ∧
          (acts = [] → t.regs = s.regs ∧ t.pc = nextAddressU u s.pc ∧ t.sp = spAfterU u s.sp ∧ t.ps = s.ps ∧ t.ia = s.ia ∧
            t.mem = s.mem)) ∧
    (s.devices.length ≤ i.u.toNat → exec (.hwi u) s =
      .fault (.absentPort i.u { i.st with halted := some (.absentPort i.u) }))

/-- R168, R214 (decisions D17, D25): what a device does in its answer is done. HWI of a connected device is the actions of its next answer,
done on the state with the port activated and the answer used up; an answer that is not in the script is some list of actions, a free
value. An empty list does nothing; a list that starts with a write of a register, a special register or a word of RAM, or with an
interrupt, does the rest on the state with that one thing done. The list of actions is the model's form (log entry 6). -/
def Obligations.DeviceActionsTakeEffect : Prop :=
  (∀ u s d, let i := readUnary u s
    s.devices[i.u.toNat]? = some d →
      (∀ acts rest, d.script = acts :: rest → exec (.hwi u) s =
        applyActions acts { i.st with
          activated := insertPort s.activated i.u.toNat
          devices := s.devices.set i.u.toNat { d with script := rest } }) ∧
      (d.script = [] → ∃ acts, exec (.hwi u) s =
        applyActions acts { i.st with activated := insertPort s.activated i.u.toNat, draws := s.draws + 1 })) ∧
  (∀ s, applyActions [] s = .next s) ∧
  ∀ (s : State) (rest : List DeviceAction) (r : Reg) (a v : Word),
    applyActions (.setReg r v :: rest) s = applyActions rest { s with regs := s.regs.set r v } ∧
    applyActions (.setPc v :: rest) s = applyActions rest { s with pc := v } ∧
    applyActions (.setSp v :: rest) s = applyActions rest { s with sp := v } ∧
    applyActions (.setPs v :: rest) s = applyActions rest { s with ps := v } ∧
    applyActions (.setIa v :: rest) s = applyActions rest { s with ia := v } ∧
    applyActions (.store a v :: rest) s = applyActions rest { s with mem := s.mem.write a.toNat v } ∧
    (s.queue.length < 256 → applyActions (.raise v :: rest) s = applyActions rest { s with queue := s.queue ++ [v] }) ∧
    (s.queue.length ≥ 256 → applyActions (.raise v :: rest) s = .fault (.onFire { s with halted := some .onFire }))

/-! ## Nullary instructions and words that are none -/

/-- R190: NOP moves PC by one and does nothing else. -/
def Obligations.NopOnlyAdvances : Prop :=
  decode [0x0000#16] = .ok (.nop, []) ∧ ∀ s, exec .nop s = .next { s with pc := s.pc + 1#16 }

/-- R191 (decision D18): CLK delivers some reading T of the clock, which is not below the last one unless it reports an overflow: high half in
I, low half in J, PS 1 or 0. The reading is a free value (log entry 9). -/
def Obligations.ClkDeliversAReading : Prop :=
  decode [0x0400#16] = .ok (.clk, []) ∧
  ∀ s, ∃ (t : BitVec 32) (ovf : Bool), (ovf = false → s.clock.toNat ≤ t.toNat) ∧
    exec .clk s =
      .next { s with
        pc := s.pc + 1#16
        regs := { s.regs with i := t.extractLsb' 16 16, j := t.extractLsb' 0 16 }
        ps := if ovf then 1#16 else 0#16
        clock := t
        draws := s.draws + 1 }

/-- R192, R58 (decision D10): ERR stops for good with PC past its word; so does every reserved first word that a step fetches, and nothing
else changes. -/
def Obligations.IllegalWordsStop : Prop :=
  decode [0xFC00#16] = .ok (.err, []) ∧
  (∀ s, exec .err s =
    .fault (.illegalInstruction 0xFC00#16
      { s with pc := s.pc + 1#16, halted := some (.illegalInstruction 0xFC00#16) })) ∧
  ∀ s : State, ReservedWord (s.readMem s.pc).toNat → runInstruction s =
    .fault (.illegalInstruction (s.readMem s.pc)
      { s with pc := s.pc + 1#16, halted := some (.illegalInstruction (s.readMem s.pc)) })

/-! ## Steps, interrupts -/

/-- R7, R206, R244: with no fault mark, once the devices have had their turn and the dispatch is done, a step is the meaning of the
instruction that stands at PC; with no device activated the devices' turn is nothing. -/
def Obligations.StepRunsTheDecodedInstruction : Prop :=
  (∀ s t i rest, s.halted = none → deviceTurn s = .next t →
    decode [t.dispatch.readMem t.dispatch.pc, t.dispatch.readMem (t.dispatch.pc + 1#16),
      t.dispatch.readMem (t.dispatch.pc + 2#16)] = .ok (i, rest) → step s = exec i t.dispatch) ∧
  (∀ s : State, s.activated = [] → deviceTurn s = .next s) ∧
  ∀ s : State, s.queueing = true ∨ s.queue = [] → s.dispatch = s

/-- R13 (decision D3): an encoded instruction placed at any address, the top of memory too, is the one the step runs there. -/
def Obligations.PlacedInstructionRuns : Prop :=
  ∀ (s : State) (i : Instr), i.wellFormed = true → s.halted = none → s.activated = [] → s.queue = [] →
    step (s.placeWords s.pc (encode i)) = exec i (s.placeWords s.pc (encode i))

/-- R206, R207 (decision D13): once the devices have had their turn, with queueing off and a handler the head of the queue is taken: queueing on,
PC and A pushed, PC from IA, A from the message, nothing else; and the instruction at the handler runs in the same step. -/
def Obligations.DispatchEntersTheHandler : Prop :=
  ∀ s t msg rest, s.halted = none → deviceTurn s = .next t → t.queueing = false → t.queue = msg :: rest → t.ia ≠ 0#16 →
    step s = runInstruction
      { t with
        queue := rest
        queueing := true
        pc := t.ia
        sp := t.sp - 2#16
        regs := t.regs.set .a msg
        mem := (t.mem.write (t.sp - 1#16).toNat t.pc).write (t.sp - 2#16).toNat (t.reg .a) }

/-- R202, R206 (decision D13): once the devices have had their turn, with IA = 0 the head of the queue is discarded; with queueing on, or nothing
queued, nothing is dispatched. -/
def Obligations.DispatchDiscardsOrHolds : Prop :=
  ∀ s t : State, s.halted = none → deviceTurn s = .next t →
    (∀ msg rest, t.queueing = false → t.queue = msg :: rest → t.ia = 0#16 → step s = runInstruction { t with queue := rest }) ∧
    (t.queueing = true → step s = runInstruction t) ∧
    (t.queue = [] → step s = runInstruction t)

/-- R207, R208: a handler that leaves SP and the two stacked words as entry left them returns with RFI to the interrupted program: A, PC and
SP are what they were, and queueing is off. -/
def Obligations.InterruptRoundTrip : Prop :=
  ∀ (s h : State) (msg : Word),
    h.sp = (s.enterInterrupt msg).sp →
    h.readMem (s.sp - 1#16) = (s.enterInterrupt msg).readMem (s.sp - 1#16) →
    h.readMem (s.sp - 2#16) = (s.enterInterrupt msg).readMem (s.sp - 2#16) →
      ∃ t, exec (.rfi (.lit 0#16)) h = .next t ∧ t.pc = s.pc ∧ t.reg .a = s.reg .a ∧ t.sp = s.sp ∧ t.queueing = false ∧
        (∀ r, r ≠ .a → t.reg r = h.reg r) ∧ h.SameRam t

/-- R203, R206: the queue is served first in, first out, at most one message a step, and only with queueing off. -/
def Obligations.QueueIsFirstInFirstOut : Prop :=
  ∀ s t, step s = .next t →
    ∃ k added, k ≤ 1 ∧ (k = 1 → s.queueing = false) ∧ t.queue = s.queue.drop k ++ added

/-! ## Frames -/

/-- SET, MOD, MDI, AND, BOR, XOR change m's location, PC and, through the operand codes, SP, and nothing else.
`(readBinary m u s).loc` is the location the meaning itself writes (R16, R75, R100, R107 to R111). -/
def Obligations.FrameOfStores : Prop :=
  ∀ i m u s t,
    i ∈ [Instr.set m u, .mod m u, .mdi m u, .and m u, .bor m u, .xor m u] → exec i s = .next t →
    let l := (readBinary m u s).loc
    (∀ r, l ≠ .reg r → t.reg r = s.reg r) ∧
    (l ≠ .sp → t.sp = spAfter m u s.sp) ∧
    (l ≠ .pc → t.pc = nextAddress m u s.pc) ∧
    (l ≠ .ps → t.ps = s.ps) ∧
    (∀ a, l = .mem a → s.SameRamBut t a) ∧
    ((∀ a, l ≠ .mem a) → s.SameRam t) ∧
    s.SameInterrupts t ∧ s.SameDevices t ∧ t.halted = s.halted ∧ t.clock = s.clock

/-- ADD, SUB, MUL, MLI, DIV, DVI, LLS, LRS, ARS, ADX, SBX change m's location, PS, PC and, through the operand codes, SP, and nothing
else (R15, R75, R101 to R106, R112 to R118). -/
def Obligations.FrameOfStoresWithPs : Prop :=
  ∀ i m u s t,
    i ∈ [Instr.add m u, .sub m u, .mul m u, .mli m u, .div m u, .dvi m u, .lls m u, .lrs m u, .ars m u, .adx m u, .sbx m u] →
    exec i s = .next t →
    let l := (readBinary m u s).loc
    (∀ r, l ≠ .reg r → t.reg r = s.reg r) ∧
    (l ≠ .sp → t.sp = spAfter m u s.sp) ∧
    (l ≠ .pc → t.pc = nextAddress m u s.pc) ∧
    (∀ a, l = .mem a → s.SameRamBut t a) ∧
    ((∀ a, l ≠ .mem a) → s.SameRam t) ∧
    s.SameInterrupts t ∧ s.SameDevices t ∧ t.halted = s.halted ∧ t.clock = s.clock

/-- STI, STD change m's location, I, J, PC and, through the operand codes, SP, and nothing else (R16, R119, R120). -/
def Obligations.FrameOfStiStd : Prop :=
  ∀ i m u s t, i ∈ [Instr.sti m u, .std m u] → exec i s = .next t →
    let l := (readBinary m u s).loc
    (∀ r, r ≠ .i → r ≠ .j → l ≠ .reg r → t.reg r = s.reg r) ∧
    (l ≠ .sp → t.sp = spAfter m u s.sp) ∧
    (l ≠ .pc → t.pc = nextAddress m u s.pc) ∧
    (l ≠ .ps → t.ps = s.ps) ∧
    (∀ a, l = .mem a → s.SameRamBut t a) ∧
    ((∀ a, l ≠ .mem a) → s.SameRam t) ∧
    s.SameInterrupts t ∧ s.SameDevices t ∧ t.halted = s.halted ∧ t.clock = s.clock

/-- The eight conditionals change PC and, through the operand codes, SP, and nothing else (R140). -/
def Obligations.FrameOfConditionals : Prop :=
  ∀ i m u s t,
    i ∈ [Instr.ifb m u, .ifc m u, .ife m u, .ifn m u, .ifg m u, .ifa m u, .ifl m u, .ifu m u] → exec i s = .next t →
    s.SameRegs t ∧ t.sp = spAfter m u s.sp ∧ t.ps = s.ps ∧ s.SameRam t ∧
    s.SameInterrupts t ∧ s.SameDevices t ∧ t.halted = s.halted ∧ t.clock = s.clock

/-- JSR changes PC, SP and the pushed word; RFI changes A, PC, SP and the queueing flag (R16, R160, R164). -/
def Obligations.FrameOfJsrAndRfi : Prop :=
  ∀ u s t,
    (exec (.jsr u) s = .next t →
      s.SameRegs t ∧ t.ps = s.ps ∧ s.SameRamBut t (spAfterU u s.sp - 1#16) ∧
      s.SameInterrupts t ∧ s.SameDevices t ∧ t.halted = s.halted ∧ t.clock = s.clock) ∧
    (exec (.rfi u) s = .next t →
      (∀ r, r ≠ .a → t.reg r = s.reg r) ∧ t.ps = s.ps ∧ s.SameRam t ∧ t.ia = s.ia ∧ t.queue = s.queue ∧
      s.SameDevices t ∧ t.halted = s.halted ∧ t.clock = s.clock)

/-- INT changes the queue, IAS changes IA, IAQ changes the queueing flag, each PC and through a pop SP, and nothing else
(R16, R161, R163, R165). -/
def Obligations.FrameOfIntIasIaq : Prop :=
  ∀ i u s t, i ∈ [Instr.int u, .ias u, .iaq u] → exec i s = .next t →
    s.SameRegs t ∧ t.sp = spAfterU u s.sp ∧ t.pc = nextAddressU u s.pc ∧ t.ps = s.ps ∧ s.SameRam t ∧
    (i ≠ .int u → t.queue = s.queue) ∧ (i ≠ .ias u → t.ia = s.ia) ∧ (i ≠ .iaq u → t.queueing = s.queueing) ∧
    s.SameDevices t ∧ t.halted = s.halted ∧ t.clock = s.clock

/-- IAG and HWN change u's location, PC and through a pop SP; HWQ changes X, Y, Z in place of u's location (R16, R162, R166, R167). -/
def Obligations.FrameOfIagHwnHwq : Prop :=
  ∀ u s t, let l := (readUnary u s).loc
    (∀ i ∈ [Instr.iag u, .hwn u], exec i s = .next t →
      (∀ r, l ≠ .reg r → t.reg r = s.reg r) ∧
      (l ≠ .sp → t.sp = spAfterU u s.sp) ∧
      (l ≠ .pc → t.pc = nextAddressU u s.pc) ∧
      (l ≠ .ps → t.ps = s.ps) ∧
      (∀ a, l = .mem a → s.SameRamBut t a) ∧
      ((∀ a, l ≠ .mem a) → s.SameRam t) ∧
      s.SameInterrupts t ∧ s.SameDevices t ∧ t.halted = s.halted ∧ t.clock = s.clock) ∧
    (exec (.hwq u) s = .next t →
      (∀ r, r ≠ .x → r ≠ .y → r ≠ .z → t.reg r = s.reg r) ∧ t.sp = spAfterU u s.sp ∧ t.pc = nextAddressU u s.pc ∧
      t.ps = s.ps ∧ s.SameRam t ∧ s.SameInterrupts t ∧ s.SameDevices t ∧ t.halted = s.halted ∧ t.clock = s.clock)

/-- NOP changes PC only; CLK changes I, J, PS, PC, the clock and the count of draws (R190, R191). -/
def Obligations.FrameOfNopAndClk : Prop :=
  ∀ s t,
    (exec .nop s = .next t →
      s.SameRegs t ∧ t.sp = s.sp ∧ t.ps = s.ps ∧ s.SameRam t ∧ s.SameInterrupts t ∧ s.SameDevices t ∧
      t.halted = s.halted ∧ t.clock = s.clock) ∧
    (exec .clk s = .next t →
      (∀ r, r ≠ .i → r ≠ .j → t.reg r = s.reg r) ∧ t.sp = s.sp ∧ s.SameRam t ∧ s.SameInterrupts t ∧
      t.devices = s.devices ∧ t.activated = s.activated ∧ t.schedule = s.schedule ∧ t.halted = s.halted)

/-- HWI, whatever its device does, leaves the queueing flag, the fault mark, the clock, the schedule, every device's
identification, and every message already queued as they are (R168, R214). -/
def Obligations.FrameOfHwi : Prop :=
  ∀ u s t, exec (.hwi u) s = .next t →
    t.queueing = s.queueing ∧ t.halted = s.halted ∧ t.clock = s.clock ∧ t.schedule = s.schedule ∧
    t.devices.map Device.ids = s.devices.map Device.ids ∧ s.queue <+: t.queue ∧
    ∀ p, p ∈ t.activated ↔ p = (readUnary u s).u.toNat ∨ p ∈ s.activated

/-! ## Rules about the whole machine -/

/-- Every instruction has a meaning: no step is refused. -/
def Obligations.NothingIsRefused : Prop :=
  (∀ i s r, exec i s ≠ .refused r) ∧ ∀ s r, step s ≠ .refused r

/-- R200, R80: an instruction stops only as the spec says: OnFire by INT or by HWI's device, IllegalInstruction by ERR, AbsentPort by HWQ and
HWI; and by the skip of a conditional that never ends (log entry 12). -/
def Obligations.InstructionsStopOnlyAsSpecified : Prop :=
  ∀ i s f, exec i s = .fault f →
    (i = .err ∧ ∃ t, f = .illegalInstruction 0xFC00#16 t) ∨
    (∃ u, i = .int u ∧ s.queue.length ≥ 256 ∧ ∃ t, f = .onFire t) ∨
    (∃ u, (i = .hwq u ∨ i = .hwi u) ∧ s.devices.length ≤ (readUnary u s).u.toNat ∧
      ∃ t, f = .absentPort (readUnary u s).u t) ∨
    (∃ u, i = .hwi u ∧ (readUnary u s).u.toNat < s.devices.length ∧ ∃ t, f = .onFire t) ∨
    (∃ m u, i ∈ [Instr.ifb m u, .ifc m u, .ife m u, .ifn m u, .ifg m u, .ifa m u, .ifl m u, .ifu m u] ∧
      ∃ t, f = .endlessSkip t ∧ ∀ k, IfWord (t.readMem (t.after^[k] t.pc)).toNat)

/-- R200, R205: from the state a fault leaves there is no step. That the mark stays in the state left, and that step there answers the very same
fault again, is the model's choice of form for it (log entry 15, DESIGN CHOICE). A skip without end never leaves its instruction, so it is
not among them (log entry 12). -/
def Obligations.FaultsAreFinal : Prop :=
  ∀ s f, step s = .fault f → (∀ t, f ≠ .endlessSkip t) → f.left.halted ≠ none ∧ step f.left = .fault f

/-- R18, R20, R21: of all instructions only IAS writes IA, only INT lengthens the queue, only IAQ and RFI write the queueing flag; HWI's
device may write IA and raise interrupts (R214), not the flag. No instruction shortens the queue. -/
def Obligations.WritersOfTheInterruptState : Prop :=
  ∀ i s t, exec i s = .next t →
    ((∀ u, i ≠ .ias u) → (∀ u, i ≠ .hwi u) → t.ia = s.ia) ∧
    ((∀ u, i ≠ .int u) → (∀ u, i ≠ .hwi u) → t.queue = s.queue) ∧
    ((∀ u, i ≠ .iaq u) → (∀ u, i ≠ .rfi u) → t.queueing = s.queueing) ∧
    s.queue <+: t.queue

/-- R217, R23: no step changes the number or the identification of the devices, and a device once activated stays so. -/
def Obligations.DeviceSetIsFixed : Prop :=
  ∀ s t, step s = .next t →
    t.devices.map Device.ids = s.devices.map Device.ids ∧ ∀ p ∈ s.activated, p ∈ t.activated

/-- R214, R215, R244 (decision D17, log entry 7): with a device activated, the devices' turn does, in order, the moves of activated ports in the
schedule's next turn, or in a free list of moves once the schedule is used up, and no move of any other port; so a turn of such moves alone
has no effect. (The schedule's own advance and the draw counter are fields of the model.) -/
def Obligations.InactiveDevicesDoNothing : Prop :=
  ∀ s : State, s.activated ≠ [] →
    (∀ moves rest, s.schedule = moves :: rest →
      deviceTurn s =
        applyActions ((moves.filter (fun mv => s.activated.contains mv.1)).map Prod.snd) { s with schedule := rest } ∧
      ((∀ mv ∈ moves, mv.1 ∉ s.activated) → deviceTurn s = .next { s with schedule := rest })) ∧
    (s.schedule = [] → ∃ moves : List (Nat × DeviceAction),
      deviceTurn s =
        applyActions ((moves.filter (fun mv => s.activated.contains mv.1)).map Prod.snd) { s with draws := s.draws + 1 })

/-- R245: at the self-loop `SUB PC, 1`, with no handler to enter and no device activated, every step ends at the self-loop again. It changes PS, to
0, or to 0xFFFF if the loop stands at the top of memory, where PC + 1 wraps to 0; and with queueing off it discards the head of the queue,
which is there with IA = 0 only (R206). -/
def Obligations.SelfLoopStaysForEver : Prop :=
  ∀ s : State, s.AtSelfLoop → s.activated = [] →
    let t := { s with
      ps := if s.pc = 0xFFFF#16 then 0xFFFF#16 else 0#16
      queue := if s.queueing then s.queue else s.queue.tail }
    step s = .next t ∧ t.AtSelfLoop ∧ t.activated = []
end

