-- ==== Sys2Proof/Laws/Decode.lean ====
section
/-! SUPPORT. The fields of a first word, the operand codes, and the tables of opcodes, there and back (30_encoding.md). -/

namespace Sys2Proof

/-! ### Fields -/

/-- A first word is its three fields (R50). -/
theorem firstWord_fields (w : Word) : firstWord (fieldU w) (fieldM w) (fieldL w) = w := by
  apply BitVec.eq_of_toNat_eq
  simp only [firstWord, fieldU, fieldM, fieldL, BitVec.toNat_append, BitVec.extractLsb'_toNat]
  have := w.isLt
  rw [← Nat.shiftLeft_add_eq_or_of_lt (by omega), ← Nat.shiftLeft_add_eq_or_of_lt (by omega)]
  simp only [Nat.shiftLeft_eq, Nat.shiftRight_eq_div_pow]
  omega

theorem toNat_firstWord (u : BitVec 6) (m l : BitVec 5) :
    (firstWord u m l).toNat = u.toNat * 1024 + m.toNat * 32 + l.toNat := by
  have := m.isLt
  have := l.isLt
  simp only [firstWord, BitVec.toNat_append]
  rw [← Nat.shiftLeft_add_eq_or_of_lt (by omega), ← Nat.shiftLeft_add_eq_or_of_lt (by omega)]
  simp only [Nat.shiftLeft_eq]
  omega

theorem toNat_fieldU (w : Word) : (fieldU w).toNat = w.toNat / 1024 := by
  have := w.isLt
  simp only [fieldU, BitVec.extractLsb'_toNat, Nat.shiftRight_eq_div_pow]
  omega

theorem toNat_fieldM (w : Word) : (fieldM w).toNat = w.toNat / 32 % 32 := by
  simp only [fieldM, BitVec.extractLsb'_toNat, Nat.shiftRight_eq_div_pow]

theorem toNat_fieldL (w : Word) : (fieldL w).toNat = w.toNat % 32 := by
  simp only [fieldL, BitVec.extractLsb'_toNat, Nat.shiftRight_eq_div_pow]
  omega

@[simp] theorem fieldU_firstWord (u : BitVec 6) (m l : BitVec 5) : fieldU (firstWord u m l) = u := by
  have := m.isLt
  have := l.isLt
  apply BitVec.eq_of_toNat_eq
  rw [toNat_fieldU, toNat_firstWord]
  omega

@[simp] theorem fieldM_firstWord (u : BitVec 6) (m l : BitVec 5) : fieldM (firstWord u m l) = m := by
  have := m.isLt
  have := l.isLt
  apply BitVec.eq_of_toNat_eq
  rw [toNat_fieldM, toNat_firstWord]
  omega

@[simp] theorem fieldL_firstWord (u : BitVec 6) (m l : BitVec 5) : fieldL (firstWord u m l) = l := by
  have := m.isLt
  have := l.isLt
  apply BitVec.eq_of_toNat_eq
  rw [toNat_fieldL, toNat_firstWord]
  omega

/-! ### Operand codes -/

theorem Reg.ofCode_code (r : Reg) : Reg.ofCode r.code = r := by cases r <;> rfl

theorem Reg.code_lt (r : Reg) : r.code < 8 := by cases r <;> decide

/-- The code of a well-formed short literal, and the value it stands for (R56). -/
theorem lit_code {v : Word} (h : (UOperand.lit v).wellFormed = true) :
    0x20 ≤ (UOperand.lit v).code.toNat ∧ BitVec.ofNat 16 (UOperand.lit v).code.toNat - 0x21#16 = v := by
  simp only [UOperand.wellFormed, Bool.or_eq_true, beq_iff_eq, decide_eq_true_eq] at h
  rcases h with rfl | h
  · decide
  · have hc : (UOperand.lit v).code.toNat = v.toNat + 0x21 := by
      simp only [UOperand.code, BitVec.toNat_ofNat]
      omega
    refine ⟨by omega, ?_⟩
    rw [hc]
    apply BitVec.eq_of_toNat_eq
    simp only [BitVec.toNat_sub, BitVec.toNat_ofNat]
    omega

/-- Every upper code from 0x20 on is a short literal and takes no NEXT word (R56, R72). -/
theorem decodeU_short {c : BitVec 6} (h : 0x20 ≤ c.toNat) (ws : List Word) :
    decodeU c ws = .ok (.lit (BitVec.ofNat 16 c.toNat - 0x21#16), ws) := by
  obtain ⟨k, hk⟩ := c
  replace h : 0x20 ≤ k := h
  interval_cases k <;> rfl

/-- The decoder reads an upper operand back from its code and its NEXT word. -/
theorem decodeU_encode {u : UOperand} (h : u.wellFormed = true) (rest : List Word) :
    decodeU u.code (u.nextWords ++ rest) = .ok (u, rest) := by
  cases u with
  | lit v =>
    obtain ⟨h1, h2⟩ := lit_code h
    rw [decodeU_short h1, h2]
    rfl
  | reg r => cases r <;> rfl
  | mem r => cases r <;> rfl
  | memNext r n => cases r <;> rfl
  | _ => rfl

/-- The decoder reads a middle operand back from its code and its NEXT word. -/
theorem decodeM_encode (m : MOperand) (rest : List Word) : decodeM m.code (m.nextWords ++ rest) = .ok (m, rest) := by
  cases m with
  | reg r => cases r <;> rfl
  | mem r => cases r <;> rfl
  | memNext r n => cases r <;> rfl
  | _ => rfl

/-- An operand code has a NEXT exactly if its form has a NEXT word (R55). -/
theorem hasNext_codeU {u : UOperand} (h : u.wellFormed = true) : (hasNext u.code.toNat).toNat = u.nextWords.length := by
  cases u with
  | lit v =>
    have := (lit_code h).1
    have hf : hasNext (UOperand.lit v).code.toNat = false := by
      simp only [hasNext, Bool.or_eq_false_iff, Bool.and_eq_false_iff, decide_eq_false_iff_not, beq_eq_false_iff_ne]
      omega
    rw [hf]
    rfl
  | reg r => cases r <;> rfl
  | mem r => cases r <;> rfl
  | memNext r n => cases r <;> rfl
  | _ => rfl

theorem hasNext_codeM (m : MOperand) : (hasNext m.code.toNat).toNat = m.nextWords.length := by
  cases m with
  | reg r => cases r <;> rfl
  | mem r => cases r <;> rfl
  | memNext r n => cases r <;> rfl
  | _ => rfl

/-! ### The three formats (R51) -/

theorem decode_binary {op : BitVec 5} {mk : MOperand → UOperand → Instr} (hop : op ≠ 0#5)
    (hmk : binaryOpcode op.toNat = some mk) (m : MOperand) {u : UOperand} (hu : u.wellFormed = true) (rest : List Word) :
    decode (encodeBinary op m u ++ rest) = .ok (mk m u, rest) := by
  simp [encodeBinary, decode, decodeBinary, hop, hmk, decodeU_encode hu, decodeM_encode]

theorem decode_unary {op : BitVec 5} {mk : UOperand → Instr} (hop : op ≠ 0#5)
    (hmk : unaryOpcode op.toNat = some mk) {u : UOperand} (hu : u.wellFormed = true) (rest : List Word) :
    decode (encodeUnary op u ++ rest) = .ok (mk u, rest) := by
  simp [encodeUnary, decode, decodeUnary, hop, hmk, decodeU_encode hu]

theorem decode_nullary {op : BitVec 6} {i : Instr} (hop : nullaryOpcode op.toNat = some i) (rest : List Word) :
    decode (encodeNullary op ++ rest) = .ok (i, rest) := by
  simp [encodeNullary, decode, decodeNullary, hop]

/-! ### Lengths (R55) -/

theorem instrLength_binary {op : BitVec 5} (hop : op ≠ 0#5) (m : MOperand) {u : UOperand} (hu : u.wellFormed = true) :
    instrLength (firstWord u.code m.code op) = 1 + u.nextWords.length + m.nextWords.length := by
  simp [instrLength, hop, hasNext_codeU hu, hasNext_codeM]

theorem instrLength_unary {op : BitVec 5} (hop : op ≠ 0#5) {u : UOperand} (hu : u.wellFormed = true) :
    instrLength (firstWord u.code op 0) = 1 + u.nextWords.length := by
  simp [instrLength, hop, hasNext_codeU hu]

theorem UOperand.nextWords_length_le (u : UOperand) : u.nextWords.length ≤ 1 := by cases u <;> simp [UOperand.nextWords]

theorem MOperand.nextWords_length_le (m : MOperand) : m.nextWords.length ≤ 1 := by cases m <;> simp [MOperand.nextWords]

end Sys2Proof
end

