-- ==== Sys2Proof/Laws/State.lean ====
section
/-! SUPPORT. One lemma per field and update of State, each true by rfl; reads after writes of the register file. -/

namespace Sys2Proof.Machine

variable (s : State)

/-! ### setReg -/

@[simp] theorem State.setReg_regs (r : Reg) (v : Word) : (s.setReg r v).regs = s.regs.set r v := rfl
@[simp] theorem State.setReg_pc (r : Reg) (v : Word) : (s.setReg r v).pc = s.pc := rfl
@[simp] theorem State.setReg_sp (r : Reg) (v : Word) : (s.setReg r v).sp = s.sp := rfl
@[simp] theorem State.setReg_ps (r : Reg) (v : Word) : (s.setReg r v).ps = s.ps := rfl
@[simp] theorem State.setReg_ia (r : Reg) (v : Word) : (s.setReg r v).ia = s.ia := rfl
@[simp] theorem State.setReg_mem (r : Reg) (v : Word) : (s.setReg r v).mem = s.mem := rfl
@[simp] theorem State.setReg_queue (r : Reg) (v : Word) : (s.setReg r v).queue = s.queue := rfl
@[simp] theorem State.setReg_queueing (r : Reg) (v : Word) : (s.setReg r v).queueing = s.queueing := rfl
@[simp] theorem State.setReg_halted (r : Reg) (v : Word) : (s.setReg r v).halted = s.halted := rfl
@[simp] theorem State.setReg_clock (r : Reg) (v : Word) : (s.setReg r v).clock = s.clock := rfl
@[simp] theorem State.setReg_devices (r : Reg) (v : Word) : (s.setReg r v).devices = s.devices := rfl
@[simp] theorem State.setReg_activated (r : Reg) (v : Word) : (s.setReg r v).activated = s.activated := rfl
@[simp] theorem State.setReg_schedule (r : Reg) (v : Word) : (s.setReg r v).schedule = s.schedule := rfl
@[simp] theorem State.setReg_draws (r : Reg) (v : Word) : (s.setReg r v).draws = s.draws := rfl

/-! ### writeMem -/

@[simp] theorem State.writeMem_regs (a v : Word) : (s.writeMem a v).regs = s.regs := rfl
@[simp] theorem State.writeMem_pc (a v : Word) : (s.writeMem a v).pc = s.pc := rfl
@[simp] theorem State.writeMem_sp (a v : Word) : (s.writeMem a v).sp = s.sp := rfl
@[simp] theorem State.writeMem_ps (a v : Word) : (s.writeMem a v).ps = s.ps := rfl
@[simp] theorem State.writeMem_ia (a v : Word) : (s.writeMem a v).ia = s.ia := rfl
@[simp] theorem State.writeMem_mem (a v : Word) : (s.writeMem a v).mem = s.mem.write a.toNat v := rfl
@[simp] theorem State.writeMem_queue (a v : Word) : (s.writeMem a v).queue = s.queue := rfl
@[simp] theorem State.writeMem_queueing (a v : Word) : (s.writeMem a v).queueing = s.queueing := rfl
@[simp] theorem State.writeMem_halted (a v : Word) : (s.writeMem a v).halted = s.halted := rfl
@[simp] theorem State.writeMem_clock (a v : Word) : (s.writeMem a v).clock = s.clock := rfl
@[simp] theorem State.writeMem_devices (a v : Word) : (s.writeMem a v).devices = s.devices := rfl
@[simp] theorem State.writeMem_activated (a v : Word) : (s.writeMem a v).activated = s.activated := rfl
@[simp] theorem State.writeMem_schedule (a v : Word) : (s.writeMem a v).schedule = s.schedule := rfl
@[simp] theorem State.writeMem_draws (a v : Word) : (s.writeMem a v).draws = s.draws := rfl

/-! ### advance -/

@[simp] theorem State.advance_regs : (s.advance).regs = s.regs := rfl
@[simp] theorem State.advance_pc : (s.advance).pc = s.pc + 1 := rfl
@[simp] theorem State.advance_sp : (s.advance).sp = s.sp := rfl
@[simp] theorem State.advance_ps : (s.advance).ps = s.ps := rfl
@[simp] theorem State.advance_ia : (s.advance).ia = s.ia := rfl
@[simp] theorem State.advance_mem : (s.advance).mem = s.mem := rfl
@[simp] theorem State.advance_queue : (s.advance).queue = s.queue := rfl
@[simp] theorem State.advance_queueing : (s.advance).queueing = s.queueing := rfl
@[simp] theorem State.advance_halted : (s.advance).halted = s.halted := rfl
@[simp] theorem State.advance_clock : (s.advance).clock = s.clock := rfl
@[simp] theorem State.advance_devices : (s.advance).devices = s.devices := rfl
@[simp] theorem State.advance_activated : (s.advance).activated = s.activated := rfl
@[simp] theorem State.advance_schedule : (s.advance).schedule = s.schedule := rfl
@[simp] theorem State.advance_draws : (s.advance).draws = s.draws := rfl

/-! ### push -/

@[simp] theorem State.push_regs (v : Word) : (s.push v).regs = s.regs := rfl
@[simp] theorem State.push_pc (v : Word) : (s.push v).pc = s.pc := rfl
@[simp] theorem State.push_sp (v : Word) : (s.push v).sp = s.sp - 1 := rfl
@[simp] theorem State.push_ps (v : Word) : (s.push v).ps = s.ps := rfl
@[simp] theorem State.push_ia (v : Word) : (s.push v).ia = s.ia := rfl
@[simp] theorem State.push_mem (v : Word) : (s.push v).mem = s.mem.write (s.sp - 1).toNat v := rfl
@[simp] theorem State.push_queue (v : Word) : (s.push v).queue = s.queue := rfl
@[simp] theorem State.push_queueing (v : Word) : (s.push v).queueing = s.queueing := rfl
@[simp] theorem State.push_halted (v : Word) : (s.push v).halted = s.halted := rfl
@[simp] theorem State.push_clock (v : Word) : (s.push v).clock = s.clock := rfl
@[simp] theorem State.push_devices (v : Word) : (s.push v).devices = s.devices := rfl
@[simp] theorem State.push_activated (v : Word) : (s.push v).activated = s.activated := rfl
@[simp] theorem State.push_schedule (v : Word) : (s.push v).schedule = s.schedule := rfl
@[simp] theorem State.push_draws (v : Word) : (s.push v).draws = s.draws := rfl

/-! ### pop -/

@[simp] theorem State.pop_regs : (s.pop.2).regs = s.regs := rfl
@[simp] theorem State.pop_pc : (s.pop.2).pc = s.pc := rfl
@[simp] theorem State.pop_sp : (s.pop.2).sp = s.sp + 1 := rfl
@[simp] theorem State.pop_ps : (s.pop.2).ps = s.ps := rfl
@[simp] theorem State.pop_ia : (s.pop.2).ia = s.ia := rfl
@[simp] theorem State.pop_mem : (s.pop.2).mem = s.mem := rfl
@[simp] theorem State.pop_queue : (s.pop.2).queue = s.queue := rfl
@[simp] theorem State.pop_queueing : (s.pop.2).queueing = s.queueing := rfl
@[simp] theorem State.pop_halted : (s.pop.2).halted = s.halted := rfl
@[simp] theorem State.pop_clock : (s.pop.2).clock = s.clock := rfl
@[simp] theorem State.pop_devices : (s.pop.2).devices = s.devices := rfl
@[simp] theorem State.pop_activated : (s.pop.2).activated = s.activated := rfl
@[simp] theorem State.pop_schedule : (s.pop.2).schedule = s.schedule := rfl
@[simp] theorem State.pop_draws : (s.pop.2).draws = s.draws := rfl

/-! ### enterInterrupt -/

@[simp] theorem State.enterInterrupt_regs (msg : Word) : (s.enterInterrupt msg).regs = s.regs.set .a msg := rfl
@[simp] theorem State.enterInterrupt_pc (msg : Word) : (s.enterInterrupt msg).pc = s.ia := rfl
@[simp] theorem State.enterInterrupt_sp (msg : Word) : (s.enterInterrupt msg).sp = s.sp - 1 - 1 := rfl
@[simp] theorem State.enterInterrupt_ps (msg : Word) : (s.enterInterrupt msg).ps = s.ps := rfl
@[simp] theorem State.enterInterrupt_ia (msg : Word) : (s.enterInterrupt msg).ia = s.ia := rfl
@[simp] theorem State.enterInterrupt_mem (msg : Word) : (s.enterInterrupt msg).mem = (s.mem.write (s.sp - 1).toNat s.pc).write (s.sp - 1 - 1).toNat (s.reg .a) := rfl
@[simp] theorem State.enterInterrupt_queue (msg : Word) : (s.enterInterrupt msg).queue = s.queue := rfl
@[simp] theorem State.enterInterrupt_queueing (msg : Word) : (s.enterInterrupt msg).queueing = true := rfl
@[simp] theorem State.enterInterrupt_halted (msg : Word) : (s.enterInterrupt msg).halted = s.halted := rfl
@[simp] theorem State.enterInterrupt_clock (msg : Word) : (s.enterInterrupt msg).clock = s.clock := rfl
@[simp] theorem State.enterInterrupt_devices (msg : Word) : (s.enterInterrupt msg).devices = s.devices := rfl
@[simp] theorem State.enterInterrupt_activated (msg : Word) : (s.enterInterrupt msg).activated = s.activated := rfl
@[simp] theorem State.enterInterrupt_schedule (msg : Word) : (s.enterInterrupt msg).schedule = s.schedule := rfl
@[simp] theorem State.enterInterrupt_draws (msg : Word) : (s.enterInterrupt msg).draws = s.draws := rfl

/-! ### returnFromInterrupt -/

@[simp] theorem State.returnFromInterrupt_regs : (s.returnFromInterrupt).regs = s.regs.set .a (s.readMem s.sp) := rfl
@[simp] theorem State.returnFromInterrupt_pc : (s.returnFromInterrupt).pc = s.readMem (s.sp + 1) := rfl
@[simp] theorem State.returnFromInterrupt_sp : (s.returnFromInterrupt).sp = s.sp + 1 + 1 := rfl
@[simp] theorem State.returnFromInterrupt_ps : (s.returnFromInterrupt).ps = s.ps := rfl
@[simp] theorem State.returnFromInterrupt_ia : (s.returnFromInterrupt).ia = s.ia := rfl
@[simp] theorem State.returnFromInterrupt_mem : (s.returnFromInterrupt).mem = s.mem := rfl
@[simp] theorem State.returnFromInterrupt_queue : (s.returnFromInterrupt).queue = s.queue := rfl
@[simp] theorem State.returnFromInterrupt_queueing : (s.returnFromInterrupt).queueing = false := rfl
@[simp] theorem State.returnFromInterrupt_halted : (s.returnFromInterrupt).halted = s.halted := rfl
@[simp] theorem State.returnFromInterrupt_clock : (s.returnFromInterrupt).clock = s.clock := rfl
@[simp] theorem State.returnFromInterrupt_devices : (s.returnFromInterrupt).devices = s.devices := rfl
@[simp] theorem State.returnFromInterrupt_activated : (s.returnFromInterrupt).activated = s.activated := rfl
@[simp] theorem State.returnFromInterrupt_schedule : (s.returnFromInterrupt).schedule = s.schedule := rfl
@[simp] theorem State.returnFromInterrupt_draws : (s.returnFromInterrupt).draws = s.draws := rfl

/-! ### pop's word -/

@[simp] theorem State.pop_fst : s.pop.1 = s.readMem s.sp := rfl

/-! ### The register file -/

/-- Reading a register after a write (R10, R11): the written one has the value, every other is as before. -/
@[simp] theorem Regs.get_set (g : Regs) (r q : Reg) (v : Word) :
    (g.set r v).get q = if q = r then v else g.get q := by
  cases r <;> cases q <;> rfl

/-- Two register files that read alike are equal. -/
theorem Regs.ext_get {g h : Regs} (e : ∀ r, g.get r = h.get r) : g = h := by
  cases g; cases h
  have ha := e .a; have hb := e .b; have hc := e .c; have hx := e .x
  have hy := e .y; have hz := e .z; have hi := e .i; have hj := e .j
  simp only [Regs.get] at ha hb hc hx hy hz hi hj
  simp [*]

@[simp] theorem State.reg_setReg (r q : Reg) (v : Word) :
    (s.setReg r v).reg q = if q = r then v else s.reg q := Regs.get_set s.regs r q v

@[simp] theorem State.reg_writeMem (q : Reg) (a v : Word) : (s.writeMem a v).reg q = s.reg q := rfl

@[simp] theorem State.reg_advance (q : Reg) : s.advance.reg q = s.reg q := rfl

@[simp] theorem State.reg_push (q : Reg) (v : Word) : (s.push v).reg q = s.reg q := rfl

/-! ### Words of RAM after an update that leaves RAM alone -/

@[simp] theorem State.readMem_setReg (r : Reg) (v b : Word) : (s.setReg r v).readMem b = s.readMem b := rfl

@[simp] theorem State.readMem_advance (b : Word) : s.advance.readMem b = s.readMem b := rfl

/-! ### Faults and the queue -/

/-- What `raise` answers (R200). -/
theorem State.raise_eq (h : Halt) : s.raise h = .fault (h.fault { s with halted := some h }) := rfl

/-- Everything Enqueue can do (R204, R205). -/
theorem State.enqueue_cases (msg : Word) :
    (s.queue.length < 256 ∧ s.enqueue msg = .next { s with queue := s.queue ++ [msg] }) ∨
      (256 ≤ s.queue.length ∧ s.enqueue msg = .fault (.onFire { s with halted := some .onFire })) := by
  by_cases h : s.queue.length < 256
  · exact .inl ⟨h, by simp [State.enqueue, queueCapacity, h]⟩
  · exact .inr ⟨by omega, by simp [State.enqueue, queueCapacity, h, State.raise, Halt.fault]⟩

/-- Everything the dispatch can do (R202, R206): nothing, discard the head, or enter the handler. -/
theorem State.dispatch_cases :
    ((s.queueing = true ∨ s.queue = []) ∧ s.dispatch = s) ∨
      (∃ msg rest, s.queueing = false ∧ s.queue = msg :: rest ∧ s.ia = 0#16 ∧ s.dispatch = { s with queue := rest }) ∨
      (∃ msg rest, s.queueing = false ∧ s.queue = msg :: rest ∧ s.ia ≠ 0#16 ∧
        s.dispatch = { s with queue := rest }.enterInterrupt msg) := by
  unfold State.dispatch
  cases hq : s.queueing
  · cases hl : s.queue with
    | nil => exact .inl ⟨.inr rfl, rfl⟩
    | cons msg rest =>
      by_cases h0 : s.ia = 0#16
      · exact .inr (.inl ⟨msg, rest, rfl, rfl, h0, by simp only [Bool.false_eq_true, if_false, if_pos h0]⟩)
      · exact .inr (.inr ⟨msg, rest, rfl, rfl, h0, by simp only [Bool.false_eq_true, if_false, if_neg h0]⟩)
  · exact .inl ⟨.inl rfl, rfl⟩

end Sys2Proof.Machine
end

