-- ==== Sys2Proof/Laws/Memory.lean ====
section
/-! SUPPORT. RAM: reads after writes, and the canonical form, which every memory operation keeps. -/

namespace Sys2Proof.Machine

/-! ### Reading after erasing, inserting, writing -/

theorem Memory.read_erase (m : Memory) (a b : Nat) :
    (m.erase a).read b = if b = a then unlistedWord else m.read b := by
  induction m with
  | nil => simp [Memory.erase, Memory.read]
  | cons c rest ih =>
    obtain ⟨k, v⟩ := c
    by_cases hka : k = a
    · subst hka
      simp only [Memory.erase, if_true, ih, Memory.read]
      by_cases hb : b = k
      · simp [hb]
      · simp [hb, Ne.symm hb]
    · simp only [Memory.erase, if_neg hka, Memory.read, ih]
      by_cases hkb : k = b
      · subst hkb; simp [hka]
      · simp [hkb]

theorem Memory.read_insert_self (m : Memory) (a : Nat) (v : Word) (h : m.read a = unlistedWord)
    (he : m.erase a = m) : (m.insert a v).read a = v := by
  induction m with
  | nil => simp [Memory.insert, Memory.read]
  | cons c rest ih =>
    obtain ⟨k, w⟩ := c
    by_cases hlt : a < k
    · simp [Memory.insert, hlt, Memory.read]
    · by_cases hka : k = a
      · subst hka
        exfalso
        have : (Memory.erase ((k, w) :: rest) k).length ≤ rest.length := by
          have hlen : ∀ l : Memory, (l.erase k).length ≤ l.length := by
            intro l
            induction l with
            | nil => simp [Memory.erase]
            | cons d l ihl =>
              obtain ⟨q, z⟩ := d
              by_cases hq : q = k <;> simp [Memory.erase, hq] <;> omega
          simpa [Memory.erase] using hlen rest
        rw [he] at this
        simp at this
      · simp only [Memory.erase, if_neg hka, List.cons.injEq, true_and] at he
        simp only [Memory.read, if_neg hka] at h
        simp [Memory.insert, hlt, Memory.read, hka, ih h he]

theorem Memory.read_insert_ne (m : Memory) {a b : Nat} (v : Word) (hb : b ≠ a) :
    (m.insert a v).read b = m.read b := by
  induction m with
  | nil => simp [Memory.insert, Memory.read, Ne.symm hb]
  | cons c rest ih =>
    obtain ⟨k, w⟩ := c
    by_cases hlt : a < k
    · simp [Memory.insert, hlt, Memory.read, Ne.symm hb]
    · simp only [Memory.insert, if_neg hlt, Memory.read, ih]

theorem Memory.erase_erase (m : Memory) (a : Nat) : (m.erase a).erase a = m.erase a := by
  induction m with
  | nil => rfl
  | cons c rest ih =>
    obtain ⟨k, w⟩ := c
    by_cases hka : k = a <;> simp [Memory.erase, hka, ih]

/-- Everything a write does to reads: the written word has the value, every other word is as before (R30). -/
@[simp] theorem Memory.read_write (m : Memory) (a b : Nat) (v : Word) :
    (m.write a v).read b = if b = a then v else m.read b := by
  unfold Memory.write
  by_cases hv : v = unlistedWord
  · subst hv; simp [Memory.read_erase]
  · rw [if_neg hv]
    by_cases hb : b = a
    · subst hb
      simpa using Memory.read_insert_self (m.erase b) b v (by simp [Memory.read_erase]) (Memory.erase_erase m b)
    · simp [hb, Memory.read_insert_ne, Memory.read_erase]

/-- `MemRead` after `MemWrite` (R30). -/
@[simp] theorem State.readMem_writeMem (s : State) (a b v : Word) :
    (s.writeMem a v).readMem b = if b = a then v else s.readMem b := by
  simp [State.readMem, State.writeMem, BitVec.toNat_inj]

@[simp] theorem State.readMem_push (s : State) (v b : Word) :
    (s.push v).readMem b = if b = s.sp - 1 then v else s.readMem b := by
  unfold State.push
  rw [State.readMem_writeMem]
  rfl

/-! ### The canonical form -/

theorem Memory.wfFrom_mono {lo lo' : Nat} {m : Memory} (h : lo ≤ lo') (hm : Memory.wfFrom lo' m = true) :
    Memory.wfFrom lo m = true := by
  cases m with
  | nil => rfl
  | cons c rest =>
    obtain ⟨k, v⟩ := c
    simp only [Memory.wfFrom, Bool.and_eq_true, decide_eq_true_eq] at hm ⊢
    exact ⟨⟨⟨by omega, hm.1.1.2⟩, hm.1.2⟩, hm.2⟩

theorem Memory.wfFrom_erase {lo : Nat} {m : Memory} (a : Nat) (hm : Memory.wfFrom lo m = true) :
    Memory.wfFrom lo (m.erase a) = true := by
  induction m generalizing lo with
  | nil => rfl
  | cons c rest ih =>
    obtain ⟨k, v⟩ := c
    simp only [Memory.wfFrom, Bool.and_eq_true, decide_eq_true_eq] at hm
    by_cases hka : k = a
    · simp only [Memory.erase, if_pos hka]
      exact ih (Memory.wfFrom_mono (by omega) hm.2)
    · simp only [Memory.erase, if_neg hka, Memory.wfFrom, Bool.and_eq_true, decide_eq_true_eq]
      exact ⟨hm.1, ih hm.2⟩

theorem Memory.wfFrom_insert {lo : Nat} {m : Memory} {a : Nat} {v : Word} (hlo : lo ≤ a) (ha : a < 65536)
    (hv : v ≠ unlistedWord) (he : m.erase a = m) (hm : Memory.wfFrom lo m = true) :
    Memory.wfFrom lo (m.insert a v) = true := by
  induction m generalizing lo with
  | nil => simp [Memory.insert, Memory.wfFrom, hlo, ha, hv]
  | cons c rest ih =>
    obtain ⟨k, w⟩ := c
    by_cases hka : k = a
    · subst hka
      exfalso
      have hmem : ∀ l : Memory, ∀ d ∈ l.erase k, d.1 ≠ k := by
        intro l
        induction l with
        | nil => simp [Memory.erase]
        | cons d l ihl =>
          obtain ⟨q, z⟩ := d
          by_cases hq : q = k
          · simpa [Memory.erase, hq] using ihl
          · simp only [Memory.erase, if_neg hq, List.mem_cons]
            rintro d (rfl | hd)
            · exact hq
            · exact ihl d hd
      exact hmem ((k, w) :: rest) (k, w) (by rw [he]; simp) rfl
    · simp only [Memory.erase, if_neg hka, List.cons.injEq, true_and] at he
      have hm' := hm
      simp only [Memory.wfFrom, Bool.and_eq_true, decide_eq_true_eq] at hm
      by_cases hlt : a < k
      · simp only [Memory.insert, if_pos hlt]
        simp only [Memory.wfFrom, Bool.and_eq_true, decide_eq_true_eq, bne_iff_ne]
        exact ⟨⟨⟨hlo, ha⟩, hv⟩, ⟨⟨by omega, hm.1.1.2⟩, by simpa using hm.1.2⟩, hm.2⟩
      · simp only [Memory.insert, if_neg hlt, Memory.wfFrom, Bool.and_eq_true, decide_eq_true_eq]
        exact ⟨hm.1, ih (by omega) he hm.2⟩

/-- A write keeps the canonical form. -/
theorem Memory.wf_write {m : Memory} {a : Nat} (v : Word) (ha : a < 65536) (hm : m.wf = true) :
    (m.write a v).wf = true := by
  unfold Memory.write Memory.wf at *
  split
  · exact Memory.wfFrom_erase a hm
  · next hv => exact Memory.wfFrom_insert (Nat.zero_le a) ha hv (Memory.erase_erase m a) (Memory.wfFrom_erase a hm)

/-- `MemWrite` keeps the canonical form: every word address is below 65536. -/
theorem State.writeMem_wf {s : State} (a v : Word) (h : s.mem.wf = true) : (s.writeMem a v).mem.wf = true :=
  Memory.wf_write v a.isLt h

/-- `Push` keeps the canonical form. -/
theorem State.push_wf {s : State} (v : Word) (h : s.mem.wf = true) : (s.push v).mem.wf = true :=
  Memory.wf_write v (s.sp - 1).isLt h

/-- Interrupt entry keeps the canonical form. -/
theorem State.enterInterrupt_wf {s : State} (msg : Word) (h : s.mem.wf = true) :
    (s.enterInterrupt msg).mem.wf = true :=
  Memory.wf_write _ (s.sp - 1 - 1).isLt (Memory.wf_write _ (s.sp - 1).isLt h)

/-- Placing words keeps the canonical form. -/
theorem State.placeWords_wf {s : State} (a : Word) (ws : List Word) (h : s.mem.wf = true) :
    (s.placeWords a ws).mem.wf = true := by
  induction ws generalizing s a with
  | nil => exact h
  | cons w rest ih => exact ih (a + 1) (State.writeMem_wf a w h)

/-- The reset memory is in canonical form. -/
theorem State.reset_wf : State.reset.mem.wf = true := rfl

end Sys2Proof.Machine
end

