-- ==== Sys2Proof/Laws/Operands.lean ====
section
/-! SUPPORT. Everything operand resolution, reading and writing can do (40_operands.md). -/

namespace Sys2Proof.Machine

/-! ### Resolution changes PC and SP only (R70, R72, R73, R76) -/

@[simp] theorem resolveU_regs (u : UOperand) (s : State) : (resolveU u s).2.regs = s.regs := by cases u <;> rfl
@[simp] theorem resolveU_ps (u : UOperand) (s : State) : (resolveU u s).2.ps = s.ps := by cases u <;> rfl
@[simp] theorem resolveU_ia (u : UOperand) (s : State) : (resolveU u s).2.ia = s.ia := by cases u <;> rfl
@[simp] theorem resolveU_mem (u : UOperand) (s : State) : (resolveU u s).2.mem = s.mem := by cases u <;> rfl
@[simp] theorem resolveU_queue (u : UOperand) (s : State) : (resolveU u s).2.queue = s.queue := by cases u <;> rfl
@[simp] theorem resolveU_queueing (u : UOperand) (s : State) : (resolveU u s).2.queueing = s.queueing := by cases u <;> rfl
@[simp] theorem resolveU_halted (u : UOperand) (s : State) : (resolveU u s).2.halted = s.halted := by cases u <;> rfl
@[simp] theorem resolveU_clock (u : UOperand) (s : State) : (resolveU u s).2.clock = s.clock := by cases u <;> rfl
@[simp] theorem resolveU_devices (u : UOperand) (s : State) : (resolveU u s).2.devices = s.devices := by cases u <;> rfl
@[simp] theorem resolveU_activated (u : UOperand) (s : State) : (resolveU u s).2.activated = s.activated := by cases u <;> rfl
@[simp] theorem resolveU_schedule (u : UOperand) (s : State) : (resolveU u s).2.schedule = s.schedule := by cases u <;> rfl
@[simp] theorem resolveU_draws (u : UOperand) (s : State) : (resolveU u s).2.draws = s.draws := by cases u <;> rfl

/-- PC moves past the NEXT word, if there is one. -/
@[simp] theorem resolveU_pc (u : UOperand) (s : State) : (resolveU u s).2.pc = s.pc + BitVec.ofNat 16 u.nextWords.length := by
  cases u <;> simp [resolveU, UOperand.nextWords]

/-- Only a pop moves SP. -/
@[simp] theorem resolveU_sp (u : UOperand) (s : State) : (resolveU u s).2.sp = if u = .pop then s.sp + 1 else s.sp := by cases u <;> rfl

@[simp] theorem resolveU_reg (u : UOperand) (s : State) (q : Reg) : (resolveU u s).2.reg q = s.reg q := by cases u <;> rfl

@[simp] theorem resolveU_readMem (u : UOperand) (s : State) (b : Word) : (resolveU u s).2.readMem b = s.readMem b := by cases u <;> rfl

@[simp] theorem resolveM_regs (m : MOperand) (s : State) : (resolveM m s).2.regs = s.regs := by cases m <;> rfl
@[simp] theorem resolveM_ps (m : MOperand) (s : State) : (resolveM m s).2.ps = s.ps := by cases m <;> rfl
@[simp] theorem resolveM_ia (m : MOperand) (s : State) : (resolveM m s).2.ia = s.ia := by cases m <;> rfl
@[simp] theorem resolveM_mem (m : MOperand) (s : State) : (resolveM m s).2.mem = s.mem := by cases m <;> rfl
@[simp] theorem resolveM_queue (m : MOperand) (s : State) : (resolveM m s).2.queue = s.queue := by cases m <;> rfl
@[simp] theorem resolveM_queueing (m : MOperand) (s : State) : (resolveM m s).2.queueing = s.queueing := by cases m <;> rfl
@[simp] theorem resolveM_halted (m : MOperand) (s : State) : (resolveM m s).2.halted = s.halted := by cases m <;> rfl
@[simp] theorem resolveM_clock (m : MOperand) (s : State) : (resolveM m s).2.clock = s.clock := by cases m <;> rfl
@[simp] theorem resolveM_devices (m : MOperand) (s : State) : (resolveM m s).2.devices = s.devices := by cases m <;> rfl
@[simp] theorem resolveM_activated (m : MOperand) (s : State) : (resolveM m s).2.activated = s.activated := by cases m <;> rfl
@[simp] theorem resolveM_schedule (m : MOperand) (s : State) : (resolveM m s).2.schedule = s.schedule := by cases m <;> rfl
@[simp] theorem resolveM_draws (m : MOperand) (s : State) : (resolveM m s).2.draws = s.draws := by cases m <;> rfl

/-- PC moves past the NEXT word, if there is one. -/
@[simp] theorem resolveM_pc (m : MOperand) (s : State) : (resolveM m s).2.pc = s.pc + BitVec.ofNat 16 m.nextWords.length := by
  cases m <;> simp [resolveM, MOperand.nextWords]

/-- Only a push moves SP. -/
@[simp] theorem resolveM_sp (m : MOperand) (s : State) : (resolveM m s).2.sp = if m = .push then s.sp - 1 else s.sp := by cases m <;> rfl

@[simp] theorem resolveM_reg (m : MOperand) (s : State) (q : Reg) : (resolveM m s).2.reg q = s.reg q := by cases m <;> rfl

@[simp] theorem resolveM_readMem (m : MOperand) (s : State) (b : Word) : (resolveM m s).2.readMem b = s.readMem b := by cases m <;> rfl

/-! ### The frames of binary and unary instructions (R71, R169) -/

@[simp] theorem readBinary_st_regs (m : MOperand) (u : UOperand) (s : State) : (readBinary m u s).st.regs = s.regs := by simp [readBinary]
@[simp] theorem readBinary_st_ps (m : MOperand) (u : UOperand) (s : State) : (readBinary m u s).st.ps = s.ps := by simp [readBinary]
@[simp] theorem readBinary_st_ia (m : MOperand) (u : UOperand) (s : State) : (readBinary m u s).st.ia = s.ia := by simp [readBinary]
@[simp] theorem readBinary_st_mem (m : MOperand) (u : UOperand) (s : State) : (readBinary m u s).st.mem = s.mem := by simp [readBinary]
@[simp] theorem readBinary_st_queue (m : MOperand) (u : UOperand) (s : State) : (readBinary m u s).st.queue = s.queue := by simp [readBinary]
@[simp] theorem readBinary_st_queueing (m : MOperand) (u : UOperand) (s : State) : (readBinary m u s).st.queueing = s.queueing := by simp [readBinary]
@[simp] theorem readBinary_st_halted (m : MOperand) (u : UOperand) (s : State) : (readBinary m u s).st.halted = s.halted := by simp [readBinary]
@[simp] theorem readBinary_st_clock (m : MOperand) (u : UOperand) (s : State) : (readBinary m u s).st.clock = s.clock := by simp [readBinary]
@[simp] theorem readBinary_st_devices (m : MOperand) (u : UOperand) (s : State) : (readBinary m u s).st.devices = s.devices := by simp [readBinary]
@[simp] theorem readBinary_st_activated (m : MOperand) (u : UOperand) (s : State) : (readBinary m u s).st.activated = s.activated := by simp [readBinary]
@[simp] theorem readBinary_st_schedule (m : MOperand) (u : UOperand) (s : State) : (readBinary m u s).st.schedule = s.schedule := by simp [readBinary]
@[simp] theorem readBinary_st_draws (m : MOperand) (u : UOperand) (s : State) : (readBinary m u s).st.draws = s.draws := by simp [readBinary]

/-- PC is the address of the following instruction (R12, R77). -/
@[simp] theorem readBinary_st_pc (m : MOperand) (u : UOperand) (s : State) :
    (readBinary m u s).st.pc = s.pc + 1 + BitVec.ofNat 16 u.nextWords.length + BitVec.ofNat 16 m.nextWords.length := by
  simp [readBinary]

@[simp] theorem readBinary_st_sp (m : MOperand) (u : UOperand) (s : State) :
    (readBinary m u s).st.sp =
      if m = .push then (if u = .pop then s.sp + 1 else s.sp) - 1 else (if u = .pop then s.sp + 1 else s.sp) := by
  simp [readBinary]

@[simp] theorem readBinary_st_reg (m : MOperand) (u : UOperand) (s : State) (q : Reg) : (readBinary m u s).st.reg q = s.reg q := by simp [readBinary]

@[simp] theorem readBinary_st_readMem (m : MOperand) (u : UOperand) (s : State) (b : Word) : (readBinary m u s).st.readMem b = s.readMem b := by simp [readBinary]

@[simp] theorem readUnary_st_regs (u : UOperand) (s : State) : (readUnary u s).st.regs = s.regs := by simp [readUnary]
@[simp] theorem readUnary_st_ps (u : UOperand) (s : State) : (readUnary u s).st.ps = s.ps := by simp [readUnary]
@[simp] theorem readUnary_st_ia (u : UOperand) (s : State) : (readUnary u s).st.ia = s.ia := by simp [readUnary]
@[simp] theorem readUnary_st_mem (u : UOperand) (s : State) : (readUnary u s).st.mem = s.mem := by simp [readUnary]
@[simp] theorem readUnary_st_queue (u : UOperand) (s : State) : (readUnary u s).st.queue = s.queue := by simp [readUnary]
@[simp] theorem readUnary_st_queueing (u : UOperand) (s : State) : (readUnary u s).st.queueing = s.queueing := by simp [readUnary]
@[simp] theorem readUnary_st_halted (u : UOperand) (s : State) : (readUnary u s).st.halted = s.halted := by simp [readUnary]
@[simp] theorem readUnary_st_clock (u : UOperand) (s : State) : (readUnary u s).st.clock = s.clock := by simp [readUnary]
@[simp] theorem readUnary_st_devices (u : UOperand) (s : State) : (readUnary u s).st.devices = s.devices := by simp [readUnary]
@[simp] theorem readUnary_st_activated (u : UOperand) (s : State) : (readUnary u s).st.activated = s.activated := by simp [readUnary]
@[simp] theorem readUnary_st_schedule (u : UOperand) (s : State) : (readUnary u s).st.schedule = s.schedule := by simp [readUnary]
@[simp] theorem readUnary_st_draws (u : UOperand) (s : State) : (readUnary u s).st.draws = s.draws := by simp [readUnary]

/-- PC is the address of the following instruction (R169). -/
@[simp] theorem readUnary_st_pc (u : UOperand) (s : State) :
    (readUnary u s).st.pc = s.pc + 1 + BitVec.ofNat 16 u.nextWords.length := by simp [readUnary]

@[simp] theorem readUnary_st_sp (u : UOperand) (s : State) : (readUnary u s).st.sp = if u = .pop then s.sp + 1 else s.sp := by simp [readUnary]

@[simp] theorem readUnary_st_reg (u : UOperand) (s : State) (q : Reg) : (readUnary u s).st.reg q = s.reg q := by simp [readUnary]

@[simp] theorem readUnary_st_readMem (u : UOperand) (s : State) (b : Word) : (readUnary u s).st.readMem b = s.readMem b := by simp [readUnary]

/-! ### Writing a location (R75) -/

@[simp] theorem writeLoc_ia (l : Loc) (v : Word) (s : State) : (writeLoc l v s).ia = s.ia := by cases l <;> rfl
@[simp] theorem writeLoc_queue (l : Loc) (v : Word) (s : State) : (writeLoc l v s).queue = s.queue := by cases l <;> rfl
@[simp] theorem writeLoc_queueing (l : Loc) (v : Word) (s : State) : (writeLoc l v s).queueing = s.queueing := by cases l <;> rfl
@[simp] theorem writeLoc_halted (l : Loc) (v : Word) (s : State) : (writeLoc l v s).halted = s.halted := by cases l <;> rfl
@[simp] theorem writeLoc_clock (l : Loc) (v : Word) (s : State) : (writeLoc l v s).clock = s.clock := by cases l <;> rfl
@[simp] theorem writeLoc_devices (l : Loc) (v : Word) (s : State) : (writeLoc l v s).devices = s.devices := by cases l <;> rfl
@[simp] theorem writeLoc_activated (l : Loc) (v : Word) (s : State) : (writeLoc l v s).activated = s.activated := by cases l <;> rfl
@[simp] theorem writeLoc_schedule (l : Loc) (v : Word) (s : State) : (writeLoc l v s).schedule = s.schedule := by cases l <;> rfl
@[simp] theorem writeLoc_draws (l : Loc) (v : Word) (s : State) : (writeLoc l v s).draws = s.draws := by cases l <;> rfl

@[simp] theorem writeLoc_reg (l : Loc) (v : Word) (s : State) (q : Reg) :
    (writeLoc l v s).reg q = if l = .reg q then v else s.reg q := by
  cases l with
  | reg r => simp [writeLoc, eq_comm]
  | _ => rfl

@[simp] theorem writeLoc_readMem (l : Loc) (v : Word) (s : State) (b : Word) :
    (writeLoc l v s).readMem b = if l = .mem b then v else s.readMem b := by
  cases l with
  | mem a => simp [writeLoc, eq_comm]
  | _ => rfl

@[simp] theorem writeLoc_sp (l : Loc) (v : Word) (s : State) : (writeLoc l v s).sp = if l = .sp then v else s.sp := by cases l <;> rfl

@[simp] theorem writeLoc_pc (l : Loc) (v : Word) (s : State) : (writeLoc l v s).pc = if l = .pc then v else s.pc := by cases l <;> rfl

@[simp] theorem writeLoc_ps (l : Loc) (v : Word) (s : State) : (writeLoc l v s).ps = if l = .ps then v else s.ps := by cases l <;> rfl

theorem writeLoc_wf (l : Loc) (v : Word) {s : State} (h : s.mem.wf = true) : (writeLoc l v s).mem.wf = true := by
  cases l with
  | mem a => exact State.writeMem_wf a v h
  | _ => exact h

/-- A write to a literal does nothing (R75). -/
@[simp] theorem writeLoc_lit (n v : Word) (s : State) : writeLoc (.lit n) v s = s := rfl

end Sys2Proof.Machine
end

