-- ==== Sys2Proof/Laws/Hardware.lean ====
section
/-! SUPPORT. Everything a list of device actions, a device turn and an answer to an HWI can do (R168, R214, R215). -/

namespace Sys2Proof.Machine

/-- What no device changes (R214): the queueing flag, the fault mark, the clock, the devices and the model's own fields. -/
structure State.DeviceProof (s t : State) : Prop where
  queueing : t.queueing = s.queueing
  halted : t.halted = s.halted
  clock : t.clock = s.clock
  devices : t.devices = s.devices
  activated : t.activated = s.activated
  schedule : t.schedule = s.schedule
  draws : t.draws = s.draws

theorem State.DeviceProof.refl (s : State) : s.DeviceProof s := ⟨rfl, rfl, rfl, rfl, rfl, rfl, rfl⟩

theorem State.DeviceProof.trans {s t r : State} (h : s.DeviceProof t) (k : t.DeviceProof r) : s.DeviceProof r :=
  ⟨k.queueing.trans h.queueing, k.halted.trans h.halted, k.clock.trans h.clock, k.devices.trans h.devices,
    k.activated.trans h.activated, k.schedule.trans h.schedule, k.draws.trans h.draws⟩

/-- Everything one device action can do. -/
theorem applyAction_cases (act : DeviceAction) (s : State) :
    (∃ t, applyAction act s = .next t ∧ s.DeviceProof t ∧ t.queue = s.queue ++ raisedBy [act] ∧
        (s.mem.wf = true → t.mem.wf = true) ∧ (s.queue.length ≤ 256 → t.queue.length ≤ 256)) ∨
      (raisedBy [act] ≠ [] ∧ 256 ≤ s.queue.length ∧
        applyAction act s = .fault (.onFire { s with halted := some .onFire })) := by
  cases act with
  | raise msg =>
    rcases s.enqueue_cases msg with ⟨hl, he⟩ | ⟨hl, he⟩
    · refine .inl ⟨_, he, ⟨rfl, rfl, rfl, rfl, rfl, rfl, rfl⟩, rfl, id, fun _ => ?_⟩
      simp; omega
    · exact .inr ⟨by simp [raisedBy], hl, he⟩
  | store a v =>
    exact .inl ⟨_, rfl, ⟨rfl, rfl, rfl, rfl, rfl, rfl, rfl⟩, by simp [raisedBy], State.writeMem_wf a v, id⟩
  | _ => exact .inl ⟨_, rfl, ⟨rfl, rfl, rfl, rfl, rfl, rfl, rfl⟩, by simp [raisedBy], id, id⟩

theorem raisedBy_cons (act : DeviceAction) (rest : List DeviceAction) :
    raisedBy (act :: rest) = raisedBy [act] ++ raisedBy rest := by
  cases act <;> simp [raisedBy]

/-- What a list of device actions leaves when it ends in a next state. -/
theorem applyActions_next {acts : List DeviceAction} {s t : State} (h : applyActions acts s = .next t) :
    s.DeviceProof t ∧ t.queue = s.queue ++ raisedBy acts ∧
      (s.mem.wf = true → t.mem.wf = true) ∧ (s.queue.length ≤ 256 → t.queue.length ≤ 256) := by
  induction acts generalizing s with
  | nil =>
    simp only [applyActions, Host.Outcome.next.injEq] at h
    subst h
    exact ⟨.refl s, by simp [raisedBy], id, id⟩
  | cons act rest ih =>
    rcases applyAction_cases act s with ⟨r, hr, hp, hq, hw, hl⟩ | ⟨_, _, hr⟩
    · simp only [applyActions, hr] at h
      obtain ⟨kp, kq, kw, kl⟩ := ih h
      refine ⟨hp.trans kp, ?_, fun z => kw (hw z), fun z => kl (hl z)⟩
      rw [kq, hq, List.append_assoc, ← raisedBy_cons]
    · simp [applyActions, hr] at h

/-- The only fault of a list of device actions is OnFire, with the mark set (R205). -/
theorem applyActions_fault {acts : List DeviceAction} {s : State} {f : Fault} (h : applyActions acts s = .fault f) :
    ∃ t, f = .onFire t ∧ t.halted = some .onFire ∧ 256 < s.queue.length + (raisedBy acts).length := by
  induction acts generalizing s with
  | nil => simp [applyActions] at h
  | cons act rest ih =>
    rw [raisedBy_cons]
    rcases applyAction_cases act s with ⟨r, hr, _, hq, _⟩ | ⟨hne, hl, hr⟩
    · simp only [applyActions, hr] at h
      obtain ⟨t, ht, hh, hlen⟩ := ih h
      refine ⟨t, ht, hh, ?_⟩
      simp only [hq, List.length_append] at hlen ⊢
      omega
    · simp only [applyActions, hr, Host.Outcome.fault.injEq] at h
      refine ⟨_, h.symm, rfl, ?_⟩
      have := List.length_pos_of_ne_nil hne
      simp only [List.length_append]
      omega

theorem applyActions_not_refused (acts : List DeviceAction) (s : State) (r : Refusal) :
    applyActions acts s ≠ .refused r := by
  induction acts generalizing s with
  | nil => simp [applyActions]
  | cons act rest ih =>
    rcases applyAction_cases act s with ⟨t, hr, _⟩ | ⟨_, _, hr⟩ <;> simp [applyActions, hr, ih]

/-- Actions that raise no more messages than the queue has room for end in a next state. -/
theorem applyActions_completes {acts : List DeviceAction} {s : State}
    (h : s.queue.length + (raisedBy acts).length ≤ 256) : ∃ t, applyActions acts s = .next t := by
  cases hr : applyActions acts s with
  | next t => exact ⟨t, rfl⟩
  | fault f =>
    obtain ⟨_, _, _, hl⟩ := applyActions_fault hr
    omega
  | refused r => exact absurd hr (applyActions_not_refused acts s r)

/-! ### The rising list of activated ports (R23) -/

theorem mem_insertPort (l : List Nat) (p q : Nat) : q ∈ insertPort l p ↔ q = p ∨ q ∈ l := by
  induction l with
  | nil => simp [insertPort]
  | cons k rest ih =>
    unfold insertPort
    split
    · simp
    · split
      · next h => subst h; simp
      · simp [ih, or_left_comm]

theorem insertPort_pairwise {l : List Nat} (p : Nat) (h : l.Pairwise (· < ·)) : (insertPort l p).Pairwise (· < ·) := by
  induction l with
  | nil => simp [insertPort]
  | cons k rest ih =>
    rw [List.pairwise_cons] at h
    unfold insertPort
    split
    · next hp =>
      rw [List.pairwise_cons]
      refine ⟨fun q hq => ?_, List.pairwise_cons.mpr h⟩
      rcases List.mem_cons.mp hq with rfl | hq
      · exact hp
      · have := h.1 q hq; omega
    · split
      · exact List.pairwise_cons.mpr h
      · rw [List.pairwise_cons]
        refine ⟨fun q hq => ?_, ih h.2⟩
        rcases (mem_insertPort rest p q).mp hq with rfl | hq
        · omega
        · exact h.1 q hq

/-! ### Turns and answers -/

/-- With no device activated nothing happens between two steps (R23, R214). -/
theorem deviceTurn_idle {s : State} (h : s.activated = []) : deviceTurn s = .next s := by
  simp [deviceTurn, h]

/-- Everything a device turn can do: nothing, or permitted actions after the schedule or the draw counter has moved on. -/
theorem deviceTurn_cases (s : State) :
    (s.activated = [] ∧ deviceTurn s = .next s) ∨
      (∃ moves rest, s.schedule = moves :: rest ∧
        deviceTurn s = applyActions (permitted s.activated moves) { s with schedule := rest }) ∨
      (∃ moves, s.schedule = [] ∧
        deviceTurn s = applyActions (permitted s.activated moves) { s with draws := s.draws + 1 }) := by
  cases ha : s.activated with
  | nil => exact .inl ⟨rfl, deviceTurn_idle ha⟩
  | cons p ps =>
    cases hs : s.schedule with
    | nil => exact .inr (.inr ⟨Config.spontaneous s.draws s.view, rfl, by simp only [deviceTurn, ha, hs]⟩)
    | cons moves rest => exact .inr (.inl ⟨moves, rest, rfl, by simp only [deviceTurn, ha, hs]⟩)

/-- The state an answer to an HWI starts from differs in the device's script and in the draw counter only. -/
theorem hwiAnswer_state (d : Device) (port : Nat) (s : State) (hd : s.devices[port]? = some d) :
    ∃ ds n, (hwiAnswer d port s).2 = { s with devices := ds, draws := n } ∧ ds.map Device.ids = s.devices.map Device.ids := by
  cases hsc : d.script with
  | nil => exact ⟨s.devices, s.draws + 1, by simp [hwiAnswer, hsc], rfl⟩
  | cons acts rest =>
    refine ⟨s.devices.set port { d with script := rest }, s.draws, by simp [hwiAnswer, hsc], ?_⟩
    apply List.ext_getElem?
    intro k
    rw [List.getElem?_map, List.getElem?_map, List.getElem?_set]
    split
    · next h =>
      subst h
      have hlt : port < s.devices.length := by
        by_contra hc
        rw [List.getElem?_eq_none (by omega)] at hd
        cases hd
      rw [hd]
      simp [hlt, Device.ids]
    · rfl

end Sys2Proof.Machine
end

