-- ==== Sys2Proof/Laws/Exec.lean ====
section
/-! SUPPORT. Everything the shared forms of the binary instructions can do. -/

namespace Sys2Proof.Machine

/-! ### A result for m (R121) -/

theorem storeWord_eq (f : Word → Word → Word) (m : MOperand) (u : UOperand) (s : State) :
    storeWord f m u s =
      writeLoc (readBinary m u s).loc (f (readBinary m u s).m (readBinary m u s).u) (readBinary m u s).st := rfl

theorem storeWord_wf (f : Word → Word → Word) (m : MOperand) (u : UOperand) {s : State} (h : s.mem.wf = true) :
    (storeWord f m u s).mem.wf = true :=
  writeLoc_wf _ _ (by simpa using h)

/-! ### A result for m and one for PS (R121) -/

theorem storeWordAndPs_eq (f : Word → Word → Word → WordAndPs) (m : MOperand) (u : UOperand) (s : State) :
    storeWordAndPs f m u s =
      { writeLoc (readBinary m u s).loc (f (readBinary m u s).m (readBinary m u s).u s.ps).word (readBinary m u s).st with
        ps := (f (readBinary m u s).m (readBinary m u s).u s.ps).ps } := by
  simp [storeWordAndPs]

theorem storeWordAndPs_wf (f : Word → Word → Word → WordAndPs) (m : MOperand) (u : UOperand) {s : State}
    (h : s.mem.wf = true) : (storeWordAndPs f m u s).mem.wf = true :=
  writeLoc_wf _ _ (by simpa using h)

/-! ### I and J (R119, R120) -/

@[simp] theorem stepIJ_reg (d : Word) (s : State) (q : Reg) :
    (stepIJ d s).reg q = if q = .i ∨ q = .j then s.reg q + d else s.reg q := by
  unfold stepIJ
  cases q <;> simp

@[simp] theorem stepIJ_mem (d : Word) (s : State) : (stepIJ d s).mem = s.mem := rfl

@[simp] theorem stepIJ_readMem (d : Word) (s : State) (b : Word) : (stepIJ d s).readMem b = s.readMem b := rfl

/-! ### Conditionals (R140, R141) -/

/-- Everything a skip can do. -/
theorem State.skip_cases (s : State) :
    (∃ pc, skipFrom skipFuel s.mem s.pc = some pc ∧ s.skip = .next { s with pc := pc }) ∨
      (skipFrom skipFuel s.mem s.pc = none ∧ s.skip = .fault (.endlessSkip s)) := by
  unfold State.skip
  cases hk : skipFrom skipFuel s.mem s.pc with
  | none => exact .inr ⟨rfl, rfl⟩
  | some pc => exact .inl ⟨pc, rfl, rfl⟩

/-- Everything a conditional can do: its test holds and it ends, or it skips. -/
theorem conditional_cases (test : Word → Word → Bool) (m : MOperand) (u : UOperand) (s : State) :
    (test (readBinary m u s).m (readBinary m u s).u = true ∧ conditional test m u s = .next (readBinary m u s).st) ∨
      (test (readBinary m u s).m (readBinary m u s).u = false ∧ conditional test m u s = (readBinary m u s).st.skip) := by
  unfold conditional
  cases ht : test (readBinary m u s).m (readBinary m u s).u
  · exact .inr ⟨rfl, by simp [ht]⟩
  · exact .inl ⟨rfl, by simp [ht]⟩

/-- What a conditional leaves when it ends: the state after reading, but for PC (R140). -/
theorem conditional_next {test : Word → Word → Bool} {m : MOperand} {u : UOperand} {s t : State}
    (h : conditional test m u s = .next t) : ∃ pc, t = { (readBinary m u s).st with pc := pc } := by
  rcases conditional_cases test m u s with ⟨_, he⟩ | ⟨_, he⟩ <;> rw [he] at h
  · exact ⟨_, (Host.Outcome.next.inj h).symm⟩
  · rcases (readBinary m u s).st.skip_cases with ⟨pc, _, hs⟩ | ⟨_, hs⟩ <;> rw [hs] at h
    · exact ⟨pc, (Host.Outcome.next.inj h).symm⟩
    · cases h

/-- Skipping a word that is no conditional ends the skip (R141). -/
theorem skipFrom_stop {n : Nat} {mem : Memory} {pc : Word} (h : isIf (mem.read pc.toNat) = false) :
    skipFrom (n + 1) mem pc = some (skipOne mem pc) := by
  simp [skipFrom, h]

/-- Skipping a conditional skips one more instruction (R141). -/
theorem skipFrom_more {n : Nat} {mem : Memory} {pc : Word} (h : isIf (mem.read pc.toNat) = true) :
    skipFrom (n + 1) mem pc = skipFrom n mem (skipOne mem pc) := by
  simp [skipFrom, h]

end Sys2Proof.Machine
end

