-- ==== Sys2Proof/Laws/PerInstr.lean ====
section
/-! SUPPORT. Statements made of every instruction as syntax, one lemma per constructor. -/

namespace Sys2Proof.Laws.EncodeLength

/-- A well-formed instruction has the number of words that its first word alone tells (R55), one to three (R50). -/
def Statement (i : Instr) : Prop :=
  i.wellFormed = true → ∃ w rest, encode i = w :: rest ∧ (encode i).length = instrLength w ∧ (encode i).length ≤ 3

theorem of_binary {op : BitVec 5} (hop : op ≠ 0#5) (m : MOperand) {u : UOperand} (hu : u.wellFormed = true) :
    ∃ w rest, encodeBinary op m u = w :: rest ∧ (encodeBinary op m u).length = instrLength w ∧
      (encodeBinary op m u).length ≤ 3 := by
  have := u.nextWords_length_le
  have := m.nextWords_length_le
  refine ⟨_, _, rfl, ?_, ?_⟩
  · rw [instrLength_binary hop m hu]; simp [encodeBinary]; omega
  · simp [encodeBinary]; omega

theorem of_unary {op : BitVec 5} (hop : op ≠ 0#5) {u : UOperand} (hu : u.wellFormed = true) :
    ∃ w rest, encodeUnary op u = w :: rest ∧ (encodeUnary op u).length = instrLength w ∧ (encodeUnary op u).length ≤ 3 := by
  have := u.nextWords_length_le
  refine ⟨_, _, rfl, ?_, ?_⟩
  · rw [instrLength_unary hop hu]; simp [encodeUnary]; omega
  · simp [encodeUnary]; omega

theorem set (m : MOperand) (u : UOperand) : Statement (.set m u) := fun h => of_binary (by decide) m h

theorem add (m : MOperand) (u : UOperand) : Statement (.add m u) := fun h => of_binary (by decide) m h

theorem sub (m : MOperand) (u : UOperand) : Statement (.sub m u) := fun h => of_binary (by decide) m h

theorem mul (m : MOperand) (u : UOperand) : Statement (.mul m u) := fun h => of_binary (by decide) m h

theorem mli (m : MOperand) (u : UOperand) : Statement (.mli m u) := fun h => of_binary (by decide) m h

theorem div (m : MOperand) (u : UOperand) : Statement (.div m u) := fun h => of_binary (by decide) m h

theorem dvi (m : MOperand) (u : UOperand) : Statement (.dvi m u) := fun h => of_binary (by decide) m h

theorem mod (m : MOperand) (u : UOperand) : Statement (.mod m u) := fun h => of_binary (by decide) m h

theorem mdi (m : MOperand) (u : UOperand) : Statement (.mdi m u) := fun h => of_binary (by decide) m h

theorem and (m : MOperand) (u : UOperand) : Statement (.and m u) := fun h => of_binary (by decide) m h

theorem bor (m : MOperand) (u : UOperand) : Statement (.bor m u) := fun h => of_binary (by decide) m h

theorem xor (m : MOperand) (u : UOperand) : Statement (.xor m u) := fun h => of_binary (by decide) m h

theorem lls (m : MOperand) (u : UOperand) : Statement (.lls m u) := fun h => of_binary (by decide) m h

theorem lrs (m : MOperand) (u : UOperand) : Statement (.lrs m u) := fun h => of_binary (by decide) m h

theorem ars (m : MOperand) (u : UOperand) : Statement (.ars m u) := fun h => of_binary (by decide) m h

theorem ifb (m : MOperand) (u : UOperand) : Statement (.ifb m u) := fun h => of_binary (by decide) m h

theorem ifc (m : MOperand) (u : UOperand) : Statement (.ifc m u) := fun h => of_binary (by decide) m h

theorem ife (m : MOperand) (u : UOperand) : Statement (.ife m u) := fun h => of_binary (by decide) m h

theorem ifn (m : MOperand) (u : UOperand) : Statement (.ifn m u) := fun h => of_binary (by decide) m h

theorem ifg (m : MOperand) (u : UOperand) : Statement (.ifg m u) := fun h => of_binary (by decide) m h

theorem ifa (m : MOperand) (u : UOperand) : Statement (.ifa m u) := fun h => of_binary (by decide) m h

theorem ifl (m : MOperand) (u : UOperand) : Statement (.ifl m u) := fun h => of_binary (by decide) m h

theorem ifu (m : MOperand) (u : UOperand) : Statement (.ifu m u) := fun h => of_binary (by decide) m h

theorem adx (m : MOperand) (u : UOperand) : Statement (.adx m u) := fun h => of_binary (by decide) m h

theorem sbx (m : MOperand) (u : UOperand) : Statement (.sbx m u) := fun h => of_binary (by decide) m h

theorem sti (m : MOperand) (u : UOperand) : Statement (.sti m u) := fun h => of_binary (by decide) m h

theorem std (m : MOperand) (u : UOperand) : Statement (.std m u) := fun h => of_binary (by decide) m h

theorem jsr (u : UOperand) : Statement (.jsr u) := fun h => of_unary (by decide) h

theorem int (u : UOperand) : Statement (.int u) := fun h => of_unary (by decide) h

theorem iag (u : UOperand) : Statement (.iag u) := fun h => of_unary (by decide) h

theorem ias (u : UOperand) : Statement (.ias u) := fun h => of_unary (by decide) h

theorem rfi (u : UOperand) : Statement (.rfi u) := fun h => of_unary (by decide) h

theorem iaq (u : UOperand) : Statement (.iaq u) := fun h => of_unary (by decide) h

theorem hwn (u : UOperand) : Statement (.hwn u) := fun h => of_unary (by decide) h

theorem hwq (u : UOperand) : Statement (.hwq u) := fun h => of_unary (by decide) h

theorem hwi (u : UOperand) : Statement (.hwi u) := fun h => of_unary (by decide) h

theorem nop : Statement .nop := fun _ => ⟨_, _, rfl, by decide, by decide⟩

theorem clk : Statement .clk := fun _ => ⟨_, _, rfl, by decide, by decide⟩

theorem err : Statement .err := fun _ => ⟨_, _, rfl, by decide, by decide⟩

end Sys2Proof.Laws.EncodeLength
end

