-- ==== Sys2Proof/Laws/Step.lean ====
section
/-! SUPPORT. Everything one step can do (R7, R244). -/

namespace Sys2Proof.Machine

/-- Everything the fetch and execution of one instruction can do. -/
theorem runInstruction_cases (s : State) :
    (∃ i rest, decode s.fetchWords = .ok (i, rest) ∧ runInstruction s = exec i s) ∨
      (∃ e, decode s.fetchWords = .error e ∧ runInstruction s = s.raiseIllegal (s.readMem s.pc)) := by
  unfold runInstruction
  cases h : decode s.fetchWords with
  | ok p => exact .inl ⟨p.1, p.2, rfl, rfl⟩
  | error e => exact .inr ⟨e, rfl, rfl⟩

/-- Everything a step can do: nothing from a fault; else the devices' turn, and after it the dispatch and one instruction. -/
theorem step_cases (s : State) :
    (∃ h, s.halted = some h ∧ step s = .fault (h.fault s)) ∨
      (s.halted = none ∧ ∃ t, deviceTurn s = .next t ∧ step s = runInstruction t.dispatch) ∨
      (s.halted = none ∧ ∃ f, deviceTurn s = .fault f ∧ step s = .fault f) ∨
      (s.halted = none ∧ ∃ r, deviceTurn s = .refused r ∧ step s = .refused r) := by
  unfold step
  cases hh : s.halted with
  | some h => exact .inl ⟨h, rfl, rfl⟩
  | none =>
    cases hd : deviceTurn s with
    | next t => exact .inr (.inl ⟨rfl, t, rfl, rfl⟩)
    | fault f => exact .inr (.inr (.inl ⟨rfl, f, rfl, rfl⟩))
    | refused r => exact .inr (.inr (.inr ⟨rfl, r, rfl, rfl⟩))

/-- With no fault mark, once the devices have had their turn, a step is the dispatch and one instruction. -/
theorem step_turn {s t : State} (hh : s.halted = none) (ht : deviceTurn s = .next t) : step s = runInstruction t.dispatch := by
  simp only [step, hh, ht]

/-- With no fault mark and no device activated, a step is the dispatch and one instruction. -/
theorem step_idle {s : State} (hh : s.halted = none) (ha : s.activated = []) : step s = runInstruction s.dispatch :=
  step_turn hh (deviceTurn_idle ha)

/-- The dispatch changes neither the fault mark nor the clock nor the devices. -/
theorem State.dispatch_frame (s : State) :
    s.dispatch.halted = s.halted ∧ s.dispatch.clock = s.clock ∧ s.dispatch.devices = s.devices ∧
      s.dispatch.activated = s.activated ∧ s.dispatch.schedule = s.schedule ∧ s.dispatch.draws = s.draws ∧
      s.dispatch.ia = s.ia := by
  rcases s.dispatch_cases with ⟨_, h⟩ | ⟨_, _, _, _, _, h⟩ | ⟨_, _, _, _, _, h⟩ <;> rw [h] <;> simp

/-- The dispatch keeps the canonical form of RAM and lengthens no queue. -/
theorem State.dispatch_wf {s : State} (hw : s.mem.wf = true) :
    s.dispatch.mem.wf = true ∧ s.dispatch.queue.length ≤ s.queue.length := by
  rcases s.dispatch_cases with ⟨_, h⟩ | ⟨m, r, _, hq, _, h⟩ | ⟨m, r, _, hq, _, h⟩ <;> rw [h]
  · exact ⟨hw, le_refl _⟩
  · exact ⟨hw, by simp [hq]⟩
  · exact ⟨State.enterInterrupt_wf (s := { s with queue := r }) m hw, by simp [hq]⟩

end Sys2Proof.Machine
end

