-- ==== Sys2Proof/Tests/Slice0.lean ====
section
/-! SUPPORT. The model's own tests: well-formedness, decoding of words written out by hand, one step per vector of
spec/95_test_vectors.md, and for every statement that has hypotheses a concrete state that meets them. -/

namespace Sys2Proof.Tests

open Sys2Proof.Machine

/-! ## Helpers -/

/-- The reset state with no device connected. -/
def blank : State := { State.reset with devices := [] }

/-- Section 2.3 of 95_test_vectors.md: one instruction word at 0, and A, B and PS. -/
def ab (word a b ps : Word) : State :=
  { blank with regs := { blank.regs with a := a, b := b }, ps := ps, mem := [(0, word)] }

/-- The start state of the operand sweeps of section 2.2, with the instruction's words at 0x0010. -/
def sweep (w0 w1 w2 : Word) : State :=
  { blank with
    regs := ⟨0x0100, 0x0200, 0x0300, 0x0400, 0x0500, 0x0600, 0x0700, 0x0800⟩
    pc := 0x0010
    sp := 0x1000
    ps := 0x00AB
    mem := [(0x0200, 0xB200), (0x0205, 0xB205), (0x0FFF, 0x4FFF), (0x1000, 0x5000), (0x1003, 0x5003), (0x2000, 0xC000)] }.placeWords 0x0010 [w0, w1, w2]

/-- What a look at the next state gives, if there is one. -/
def look {α : Type} (f : State → α) (r : Result) : Option α :=
  match r with
  | .next t => some (f t)
  | .fault _ => none
  | .refused _ => none

/-- The fault mark and PC that a fault leaves. -/
def stopped (r : Result) : Option (Option Halt × Word) :=
  match r with
  | .next _ => none
  | .fault f => some (f.left.halted, f.left.pc)
  | .refused _ => none

/-- A device that does nothing on its first HWI. -/
def quiet : Device := { manufacturer := 0x1111, hardwareId := 0x2222, version := 0x0003, script := [[]] }

/-- A device that on its first HWI writes 1 to C and raises an interrupt. -/
def busy : Device := { quiet with script := [[.setReg .c 0x0001, .raise 0x0042]] }

/-! ## Well-formedness -/

/-- A short literal ends at 30 (R56): 31 has no code. -/
theorem test_wellformed_refuses_literal_31 : (Instr.set (.reg .a) (.lit 31)).wellFormed = false := by decide

theorem test_wellformed_refuses_literal_minus_2 : (Instr.jsr (.lit 0xFFFE)).wellFormed = false := by decide

theorem test_wellformed_admits_both_ends :
    (Instr.set (.reg .a) (.lit 0xFFFF)).wellFormed = true ∧ (Instr.set (.reg .a) (.lit 30)).wellFormed = true := by decide

/-! ## Decoding: words written out from 30_encoding.md R50 to R57, as UUUUUU MMMMM LLLLL -/

theorem test_decode_set : decodeTableWord 16 0b0000010000000001 = some (.set (.reg .a) (.reg .b)) := by decide

theorem test_decode_add : decodeTableWord 16 0b0110001100000010 = some (.add .push .pop) := by decide

theorem test_decode_sub : decodeTableWord 16 0b1000101110000011 = some (.sub .pc (.lit 1)) := by decide

theorem test_decode_mul : decodeTableWord 16 0b0000010000000100 = some (.mul (.reg .a) (.reg .b)) := by decide

theorem test_decode_mli : decodeTableWord 16 0b0010100001100101 = some (.mli (.reg .x) (.mem .c)) := by decide

theorem test_decode_div : decodeTableWord 16 0b0110010010000110 = some (.div (.reg .y) .peek) := by decide

theorem test_decode_dvi : decodeTableWord 16 0b0110110010100111 = some (.dvi (.reg .z) .sp) := by decide

theorem test_decode_mod : decodeTableWord 16 0b0111000011001000 = some (.mod (.reg .i) .pc) := by decide

theorem test_decode_mdi : decodeTableWord 16 0b0111010011101001 = some (.mdi (.reg .j) .ps) := by decide

theorem test_decode_and : decodeTableWord 16 0b1100001110101010 = some (.and .ps (.lit 15)) := by decide

theorem test_decode_bor : decodeTableWord 16 0b0000100100001011 = some (.bor (.mem .a) (.reg .c)) := by decide

theorem test_decode_xor : decodeTableWord 16 0b0000111100101100 = some (.xor .peek (.reg .x)) := by decide

theorem test_decode_lls : decodeTableWord 16 0b1001010000001101 = some (.lls (.reg .a) (.lit 4)) := by decide

theorem test_decode_lrs : decodeTableWord 16 0b1001010000101110 = some (.lrs (.reg .b) (.lit 4)) := by decide

theorem test_decode_ars : decodeTableWord 16 0b1111110001001111 = some (.ars (.reg .c) (.lit 30)) := by decide

theorem test_decode_ifb : decodeTableWord 16 0b0000010000010000 = some (.ifb (.reg .a) (.reg .b)) := by decide

theorem test_decode_ifc : decodeTableWord 16 0b0000010000010001 = some (.ifc (.reg .a) (.reg .b)) := by decide

theorem test_decode_ife : decodeTableWord 16 0b1000011100010010 = some (.ife .push (.lit 0)) := by decide

theorem test_decode_ifn : decodeTableWord 16 0b1000010000010011 = some (.ifn (.reg .a) (.lit 0)) := by decide

theorem test_decode_ifg : decodeTableWord 16 0b0000010000010100 = some (.ifg (.reg .a) (.reg .b)) := by decide

theorem test_decode_ifa : decodeTableWord 16 0b1000000000010101 = some (.ifa (.reg .a) (.lit 0xFFFF)) := by decide

theorem test_decode_ifl : decodeTableWord 16 0b1001010011010110 = some (.ifl (.reg .i) (.lit 4)) := by decide

theorem test_decode_ifu : decodeTableWord 16 0b1010110000010111 = some (.ifu (.reg .a) (.lit 10)) := by decide

theorem test_decode_adx : decodeTableWord 16 0b0111011110111010 = some (.adx .ps .ps) := by decide

theorem test_decode_sbx : decodeTableWord 16 0b0001001101111011 = some (.sbx .sp (.reg .y)) := by decide

theorem test_decode_sti : decodeTableWord 16 0b0011100111111110 = some (.sti (.mem .j) (.mem .i)) := by decide

theorem test_decode_std : decodeTableWord 16 0b0001100011111111 = some (.std (.reg .j) (.reg .i)) := by decide

theorem test_decode_jsr : decodeTableWord 16 0b0000000000100000 = some (.jsr (.reg .a)) := by decide

theorem test_decode_int : decodeTableWord 16 0b1001100100000000 = some (.int (.lit 5)) := by decide

theorem test_decode_iag : decodeTableWord 16 0b0000000100100000 = some (.iag (.reg .a)) := by decide

theorem test_decode_ias : decodeTableWord 16 0b0000000101000000 = some (.ias (.reg .a)) := by decide

theorem test_decode_rfi : decodeTableWord 16 0b1000010101100000 = some (.rfi (.lit 0)) := by decide

theorem test_decode_iaq : decodeTableWord 16 0b1000100110000000 = some (.iaq (.lit 1)) := by decide

theorem test_decode_hwn : decodeTableWord 16 0b0001101000000000 = some (.hwn (.reg .i)) := by decide

theorem test_decode_hwq : decodeTableWord 16 0b0001111000100000 = some (.hwq (.reg .j)) := by decide

theorem test_decode_hwi : decodeTableWord 16 0b1001101001000000 = some (.hwi (.lit 5)) := by decide

theorem test_decode_nop : decodeTableWord 16 0b0000000000000000 = some (.nop) := by decide

theorem test_decode_clk : decodeTableWord 16 0b0000010000000000 = some (.clk) := by decide

theorem test_decode_err : decodeTableWord 16 0b1111110000000000 = some (.err) := by decide

/-- Section 2.1: u's NEXT comes before m's (decision D1); the first word's 0x7FC1 is 011111 11110 00001. -/
theorem test_decode_two_nexts :
    decode [0b0111111111000001, 0x0020, 0x1000] = .ok (.set (.abs 0x1000) (.next 0x0020), []) := by rfl

/-- Section 2.1: 7BFF is STD with a literal as m, three words. -/
theorem test_decode_std_to_literal :
    decode [0x7BFF, 0x1000, 0x0005] = .ok (.std (.next 0x0005) (.abs 0x1000), []) := by rfl

/-- Section 2.1: FFFF, a word of all ones, is a defined instruction. -/
theorem test_decode_all_ones : decode [0xFFFF, 0x0009] = .ok (.std (.next 0x0009) (.lit 30), []) := by rfl

/-- Section 2.1: a reserved word of each format is refused by name, and Length still counts its NEXT words. -/
theorem test_decode_reserved :
    decode [0x7FF8, 0, 0] = .error (.reservedBinary 0x7FF8) ∧ decode [0x43E0, 0, 0] = .error (.reservedUnary 0x43E0) ∧
      decode [0x0800, 0, 0] = .error (.reservedNullary 0x0800) ∧
      instrLength 0x7FF8 = 3 ∧ instrLength 0x43E0 = 2 ∧ instrLength 0xFFFD = 2 ∧ instrLength 0x0800 = 1 := by
  refine ⟨rfl, rfl, rfl, ?_, ?_, ?_, ?_⟩ <;> decide

theorem test_decode_truncated : decode [0x7C01] = .error .truncated := by rfl

/-- Each of 30_encoding.md section 6's words, encoded. -/
theorem test_encode_worked :
    encode (.set (.abs 0x1000) (.next 0x20)) = [0x7FC1, 0x0020, 0x1000] ∧ encode (.add .push .pop) = [0x6302] ∧
      encode (.sub .pc (.lit 1)) = [0x8B83] ∧ encode (.ias (.next 0x20)) = [0x7D40, 0x0020] ∧ encode .clk = [0x0400] := by
  decide

/-! ## Operands (section 2.2 of 95_test_vectors.md) -/

/-- SET A, [B + 5] -/
theorem test_upper_indexed :
    look (fun t => (t.regs.a, t.pc, t.sp)) (step (sweep 0x4401 0x0005 0)) = some (0xB205, 0x0012, 0x1000) := by decide

/-- SET A, [SP++] -/
theorem test_upper_pop :
    look (fun t => (t.regs.a, t.pc, t.sp)) (step (sweep 0x6001 0 0)) = some (0x5000, 0x0011, 0x1001) := by decide

/-- SET A, [SP + 3] -/
theorem test_upper_pick :
    look (fun t => (t.regs.a, t.pc, t.sp)) (step (sweep 0x6801 0x0003 0)) = some (0x5003, 0x0012, 0x1000) := by decide

/-- SET A, [0x2000] -/
theorem test_upper_abs :
    look (fun t => (t.regs.a, t.pc, t.sp)) (step (sweep 0x7801 0x2000 0)) = some (0xC000, 0x0012, 0x1000) := by decide

/-- SET A, PC -/
theorem test_upper_pc :
    look (fun t => (t.regs.a, t.pc, t.sp)) (step (sweep 0x7001 0 0)) = some (0x0011, 0x0011, 0x1000) := by decide

/-- SET A, -1 -/
theorem test_upper_short_literal :
    look (fun t => (t.regs.a, t.pc, t.sp)) (step (sweep 0x8001 0 0)) = some (0xFFFF, 0x0011, 0x1000) := by decide

/-- SET [B + 5], 0x55AA -/
theorem test_middle_indexed :
    look (fun t => (t.readMem 0x0205, t.pc, t.sp)) (step (sweep 0x7E21 0x55AA 0x0005)) = some (0x55AA, 0x0013, 0x1000) := by decide

/-- SET [--SP], 0x55AA -/
theorem test_middle_push :
    look (fun t => (t.readMem 0x0FFF, t.pc, t.sp)) (step (sweep 0x7F01 0x55AA 0)) = some (0x55AA, 0x0012, 0x0FFF) := by decide

/-- SET [SP + 3], 0x55AA -/
theorem test_middle_pick :
    look (fun t => (t.readMem 0x1003, t.pc, t.sp)) (step (sweep 0x7F41 0x55AA 0x0003)) = some (0x55AA, 0x0013, 0x1000) := by decide

/-- SET PC, 0x55AA -/
theorem test_middle_pc :
    look (fun t => (t.ps, t.pc, t.sp)) (step (sweep 0x7F81 0x55AA 0)) = some (0x00AB, 0x55AA, 0x1000) := by decide

/-- SET PS, 0x55AA -/
theorem test_middle_ps :
    look (fun t => (t.ps, t.pc, t.sp)) (step (sweep 0x7FA1 0x55AA 0)) = some (0x55AA, 0x0012, 0x1000) := by decide

/-- SET 0x1234, 0x55AA: the write silently fails. -/
theorem test_middle_literal :
    look (fun t => (t.regs, t.mem, t.pc)) (step (sweep 0x7FE1 0x55AA 0x1234)) =
      some ((sweep 0x7FE1 0x55AA 0x1234).regs, (sweep 0x7FE1 0x55AA 0x1234).mem, 0x0013) := by decide

/-- Section 2.2: SET [0x1000], 0x20 with its words at FFFF, 0000 and 0001: PC wraps (R13). -/
theorem test_straddling :
    look (fun t => (t.readMem 0x1000, t.pc)) (step ({ blank with pc := 0xFFFF }.placeWords 0xFFFF [0x7FC1, 0x0020, 0x1000])) =
      some (0x0020, 0x0002) := by decide

/-- SET [--SP], 7 with SP = 0. -/
theorem test_push_at_bottom_wraps :
    look (fun t => (t.readMem 0xFFFF, t.sp)) (step (ab 0xA301 0 0 0)) = some (0x0007, 0xFFFF) := by decide

/-- MUL PS, 2 with PS = 8001: the instruction's own PS result wins (decision D8). -/
theorem test_ps_as_destination :
    look (fun t => t.ps) (step (ab 0x8FA4 0 0 0x8001)) = some 0x0001 := by decide

/-! ## Instructions that compute and store (sections 2.3 to 2.10 of 95_test_vectors.md) -/

/-- Vector V-SET-1. -/
theorem test_set_1 :
    look (fun t => (t.regs.a, t.ps, t.pc)) (step (ab 0x0401 0x1234 0xABCD 0x00AB)) = some (0xABCD, 0x00AB, 0x0001) := by decide

/-- Vector V-ADD-2. -/
theorem test_add_2 :
    look (fun t => (t.regs.a, t.ps, t.pc)) (step (ab 0x0402 0xFFFF 0x0001 0x00AB)) = some (0x0000, 0x0001, 0x0001) := by decide

/-- Vector V-ADD-4. -/
theorem test_add_4 :
    look (fun t => (t.regs.a, t.ps, t.pc)) (step (ab 0x0402 0x7FFF 0x0001 0x00AB)) = some (0x8000, 0x0000, 0x0001) := by decide

/-- Vector V-SUB-2. -/
theorem test_sub_2 :
    look (fun t => (t.regs.a, t.ps, t.pc)) (step (ab 0x0403 0x0003 0x0005 0x00AB)) = some (0xFFFE, 0xFFFF, 0x0001) := by decide

/-- Vector V-SUB-5. -/
theorem test_sub_5 :
    look (fun t => (t.regs.a, t.ps, t.pc)) (step (ab 0x0403 0x8000 0x0001 0x00AB)) = some (0x7FFF, 0x0000, 0x0001) := by decide

/-- Vector V-MUL-2. -/
theorem test_mul_2 :
    look (fun t => (t.regs.a, t.ps, t.pc)) (step (ab 0x0404 0xFFFF 0xFFFF 0x00AB)) = some (0x0001, 0xFFFE, 0x0001) := by decide

/-- Vector V-MUL-7. -/
theorem test_mul_7 :
    look (fun t => (t.regs.a, t.ps, t.pc)) (step (ab 0x0404 0x1234 0x0100 0x00AB)) = some (0x3400, 0x0012, 0x0001) := by decide

/-- Vector V-MLI-3. -/
theorem test_mli_3 :
    look (fun t => (t.regs.a, t.ps, t.pc)) (step (ab 0x0405 0xFFFE 0x0003 0x00AB)) = some (0xFFFA, 0xFFFF, 0x0001) := by decide

/-- Vector V-MLI-5. -/
theorem test_mli_5 :
    look (fun t => (t.regs.a, t.ps, t.pc)) (step (ab 0x0405 0x8000 0xFFFF 0x00AB)) = some (0x8000, 0x0000, 0x0001) := by decide

/-- Vector V-DIV-1. -/
theorem test_div_1 :
    look (fun t => (t.regs.a, t.ps, t.pc)) (step (ab 0x0406 0x0007 0x0002 0x00AB)) = some (0x0003, 0x8000, 0x0001) := by decide

/-- Vector V-DIV-5. -/
theorem test_div_5 :
    look (fun t => (t.regs.a, t.ps, t.pc)) (step (ab 0x0406 0x0005 0x0000 0x00AB)) = some (0x0000, 0x0000, 0x0001) := by decide

/-- Vector V-DVI-5. -/
theorem test_dvi_5 :
    look (fun t => (t.regs.a, t.ps, t.pc)) (step (ab 0x0407 0xFFFF 0x0003 0x00AB)) = some (0x0000, 0xAAAB, 0x0001) := by decide

/-- Vector V-DVI-7. -/
theorem test_dvi_7 :
    look (fun t => (t.regs.a, t.ps, t.pc)) (step (ab 0x0407 0x8000 0xFFFF 0x00AB)) = some (0x8000, 0x0000, 0x0001) := by decide

/-- Vector V-MOD-2. -/
theorem test_mod_2 :
    look (fun t => (t.regs.a, t.ps, t.pc)) (step (ab 0x0408 0xFFF9 0x0010 0x00AB)) = some (0x0009, 0x00AB, 0x0001) := by decide

/-- Vector V-MOD-3. -/
theorem test_mod_3 :
    look (fun t => (t.regs.a, t.ps, t.pc)) (step (ab 0x0408 0x0005 0x0000 0x00AB)) = some (0x0000, 0x00AB, 0x0001) := by decide

/-- Vector V-MDI-1. -/
theorem test_mdi_1 :
    look (fun t => (t.regs.a, t.ps, t.pc)) (step (ab 0x0409 0xFFF9 0x0010 0x00AB)) = some (0xFFF9, 0x00AB, 0x0001) := by decide

/-- Vector V-MDI-4. -/
theorem test_mdi_4 :
    look (fun t => (t.regs.a, t.ps, t.pc)) (step (ab 0x0409 0x0007 0xFFFE 0x00AB)) = some (0x0001, 0x00AB, 0x0001) := by decide

/-- Vector V-AND-1. -/
theorem test_and_1 :
    look (fun t => (t.regs.a, t.ps, t.pc)) (step (ab 0x040A 0xF0F0 0xFF00 0x00AB)) = some (0xF000, 0x00AB, 0x0001) := by decide

/-- Vector V-BOR-1. -/
theorem test_bor_1 :
    look (fun t => (t.regs.a, t.ps, t.pc)) (step (ab 0x040B 0xF0F0 0x0F00 0x00AB)) = some (0xFFF0, 0x00AB, 0x0001) := by decide

/-- Vector V-XOR-1. -/
theorem test_xor_1 :
    look (fun t => (t.regs.a, t.ps, t.pc)) (step (ab 0x040C 0xF0F0 0xFF00 0x00AB)) = some (0x0FF0, 0x00AB, 0x0001) := by decide

/-- Vector V-LLS-5. -/
theorem test_lls_5 :
    look (fun t => (t.regs.a, t.ps, t.pc)) (step (ab 0x040D 0x1234 0x0011 0x00AB)) = some (0x0000, 0x2468, 0x0001) := by decide

/-- Vector V-LLS-9. -/
theorem test_lls_9 :
    look (fun t => (t.regs.a, t.ps, t.pc)) (step (ab 0x040D 0xFFFF 0x000F 0x00AB)) = some (0x8000, 0x7FFF, 0x0001) := by decide

/-- Vector V-LRS-5. -/
theorem test_lrs_5 :
    look (fun t => (t.regs.a, t.ps, t.pc)) (step (ab 0x040E 0x1234 0x0011 0x00AB)) = some (0x0000, 0x091A, 0x0001) := by decide

/-- Vector V-LRS-3. -/
theorem test_lrs_3 :
    look (fun t => (t.regs.a, t.ps, t.pc)) (step (ab 0x040E 0x8001 0x0001 0x00AB)) = some (0x4000, 0x8000, 0x0001) := by decide

/-- Vector V-ARS-2. -/
theorem test_ars_2 :
    look (fun t => (t.regs.a, t.ps, t.pc)) (step (ab 0x040F 0x9234 0x0004 0x00AB)) = some (0xF923, 0x4000, 0x0001) := by decide

/-- Vector V-ARS-7. -/
theorem test_ars_7 :
    look (fun t => (t.regs.a, t.ps, t.pc)) (step (ab 0x040F 0x9234 0x0020 0x00AB)) = some (0xFFFF, 0xFFFF, 0x0001) := by decide

/-- Vector V-ADX-3, the same under both readings. -/
theorem test_adx_3 :
    look (fun t => (t.regs.a, t.ps)) (step (ab 0x041A 0xFFFF 0xFFFF 0x0001)) = some (0xFFFF, 0x0001) := by decide

/-- Vector V-ADX-5, PS = FFFF counted as 65535 and as -1 (PS_IN_READING). -/
theorem test_adx_readings :
    adxWords 0x0005 0x0005 65535 = ⟨0x0009, 0x0001⟩ ∧ adxWords 0x0005 0x0005 (-1) = ⟨0x0009, 0x0000⟩ := by decide

/-- Vector V-SBX-4, the same under both readings. -/
theorem test_sbx_4 :
    look (fun t => (t.regs.a, t.ps)) (step (ab 0x041B 0x0003 0x0005 0x0001)) = some (0xFFFF, 0xFFFF) := by decide

/-- Vector V-SBX-7, PS = FFFF counted as 65535 and as -1 (PS_IN_READING). -/
theorem test_sbx_readings :
    sbxWords 0x0000 0x0000 65535 = ⟨0xFFFF, 0x0000⟩ ∧ sbxWords 0x0000 0x0000 (-1) = ⟨0xFFFF, 0xFFFF⟩ := by decide

/-- Section 2.10: a word at 0, and I and J, with 0x0042 in B. -/
def ij (word i j : Word) : State :=
  { blank with regs := { blank.regs with b := 0x0042, i := i, j := j }, mem := [(0, word), (0x0100, 0xCAFE)] }

/-- Vector V-STI-2, STI I, 5: the store to I, then the increment. -/
theorem test_sti_2 :
    look (fun t => (t.regs.i, t.regs.j)) (step (ij 0x98DE 0x0100 0x0007)) = some (0x0006, 0x0008) := by decide

/-- Vector V-STI-3, STI [J], [I]: addresses use the old I and J. -/
theorem test_sti_3 :
    look (fun t => (t.readMem 0x0200, t.regs.i, t.regs.j)) (step (ij 0x39FE 0x0100 0x0200)) = some (0xCAFE, 0x0101, 0x0201) := by decide

/-- Vector V-STD-1. -/
theorem test_std_1 :
    look (fun t => (t.regs.a, t.regs.i, t.regs.j)) (step (ij 0x041F 0x0000 0x0005)) = some (0x0042, 0xFFFF, 0x0004) := by decide

/-- Vector V-STD-3, STD J, I. -/
theorem test_std_3 :
    look (fun t => (t.regs.i, t.regs.j)) (step (ij 0x18FF 0x0020 0x0030)) = some (0x001F, 0x001F) := by decide

/-! ## Conditionals (section 2.8 of 95_test_vectors.md): PC 1 is a pass, PC 2 a skip of the NOP at 1 -/

theorem test_ifb_passes :
    look (fun t => t.pc) (step (ab 0x0410 0x00F0 0x0010 0)) = some 0x0001 := by decide

theorem test_ifb_skips :
    look (fun t => t.pc) (step (ab 0x0410 0x00F0 0x000F 0)) = some 0x0002 := by decide

theorem test_ifc_skips :
    look (fun t => t.pc) (step (ab 0x0411 0x00F0 0x0010 0)) = some 0x0002 := by decide

theorem test_ifc_passes :
    look (fun t => t.pc) (step (ab 0x0411 0x00F0 0x000F 0)) = some 0x0001 := by decide

theorem test_ife_passes :
    look (fun t => t.pc) (step (ab 0x0412 0x0005 0x0005 0)) = some 0x0001 := by decide

theorem test_ife_skips :
    look (fun t => t.pc) (step (ab 0x0412 0x00F0 0x0010 0)) = some 0x0002 := by decide

theorem test_ifn_skips :
    look (fun t => t.pc) (step (ab 0x0413 0x0005 0x0005 0)) = some 0x0002 := by decide

theorem test_ifn_passes :
    look (fun t => t.pc) (step (ab 0x0413 0xFFFF 0x0001 0)) = some 0x0001 := by decide

theorem test_ifg_passes :
    look (fun t => t.pc) (step (ab 0x0414 0xFFFF 0x0001 0)) = some 0x0001 := by decide

theorem test_ifg_skips :
    look (fun t => t.pc) (step (ab 0x0414 0x0001 0xFFFF 0)) = some 0x0002 := by decide

theorem test_ifa_skips :
    look (fun t => t.pc) (step (ab 0x0415 0xFFFF 0x0001 0)) = some 0x0002 := by decide

theorem test_ifa_passes :
    look (fun t => t.pc) (step (ab 0x0415 0x0001 0xFFFF 0)) = some 0x0001 := by decide

theorem test_ifl_skips :
    look (fun t => t.pc) (step (ab 0x0416 0xFFFF 0x0001 0)) = some 0x0002 := by decide

theorem test_ifl_passes :
    look (fun t => t.pc) (step (ab 0x0416 0x0001 0xFFFF 0)) = some 0x0001 := by decide

theorem test_ifu_passes :
    look (fun t => t.pc) (step (ab 0x0417 0xFFFF 0x0001 0)) = some 0x0001 := by decide

theorem test_ifu_skips :
    look (fun t => t.pc) (step (ab 0x0417 0x0001 0xFFFF 0)) = some 0x0002 := by decide

/-- A state whose words from 0 on are those of a skipping vector. -/
def skipping (a sp : Word) (ws : List Word) : State :=
  { blank with regs := { blank.regs with a := a }, sp := sp }.placeWords 0 ws

/-- Section 2.8: IFN A, 0 with A = 0 skips SET [0x1000], 0x20. -/
theorem test_skip_three_words :
    look (fun t => (t.pc, t.readMem 0x1000)) (step (skipping 0 0 [0x8413, 0x7FC1, 0x0020, 0x1000, 0x8C61])) = some (0x0004, 0) := by decide

/-- A skipped [SP++] is not resolved. -/
theorem test_skip_resolves_nothing :
    look (fun t => (t.pc, t.sp)) (step (skipping 0 0x0100 [0x8413, 0x6021])) = some (0x0002, 0x0100) := by decide

/-- A skipped reserved word is not executed, and its length holds. -/
theorem test_skip_reserved :
    look (fun t => t.pc) (step (skipping 0 0 [0x8413, 0x7FF8])) = some 0x0004 := by decide

/-- Two conditionals and the SET after them are skipped in one step. -/
theorem test_skip_chain :
    look (fun t => t.pc) (step (skipping 1 0 [0x8412, 0x8432, 0x8452, 0x8C61, 0x9081])) = some 0x0004 := by decide

/-! ## Unary instructions (section 2.11 of 95_test_vectors.md) -/

/-- `n` messages in the queue. -/
def waiting (n : Nat) : State := { blank with queue := List.replicate n 0 }

theorem waiting_length (n : Nat) : (waiting n).queue.length = n := List.length_replicate

/-- Vector V-JSR-1. -/
theorem test_jsr_1 :
    look (fun t => (t.readMem 0xFFFF, t.sp, t.pc)) (step ({ blank with pc := 0x0010 }.placeWords 0x0010 [0x7C20, 0x0100])) =
      some (0x0012, 0xFFFF, 0x0100) := by decide

/-- Vector V-JSR-3, JSR [SP++]: u is read before the push. -/
theorem test_jsr_3 :
    look (fun t => (t.readMem 0x1000, t.sp, t.pc)) (step (({ blank with pc := 0x0010, sp := 0x1000 }.placeWords 0x0010 [0x6020]).writeMem 0x1000 0x0300)) =
      some (0x0011, 0x1000, 0x0300) := by decide

/-- Vector V-INT-1, the INT. -/
theorem test_int_1 :
    look (fun t => (t.queue, t.pc)) (step ({ blank with pc := 0x0010, ia := 0x0200 }.placeWords 0x0010 [0x9900])) = some ([0x0005], 0x0011) := by decide

/-- R205: the 257th message sets the machine on fire, with PC past the INT. -/
theorem test_int_full : ∃ t, exec (.int (.lit 7)) (waiting 256) = .fault (.onFire t) ∧ t.halted = some .onFire ∧ t.pc = 1 := by
  rcases (readUnary (.lit 7) (waiting 256)).st.enqueue_cases 7 with ⟨hl, _⟩ | ⟨_, he⟩
  · exact absurd hl (by rw [readUnary_st_queue, waiting_length]; omega)
  · exact ⟨_, he, rfl, rfl⟩

/-- Vector V-IAG-1. -/
theorem test_iag_1 :
    look (fun t => t.regs.a) (step ({ blank with ia := 0x1234 }.placeWords 0 [0x0120])) = some 0x1234 := by decide

/-- Vector V-IAS-1. -/
theorem test_ias_1 :
    look (fun t => t.ia) (step (ab 0x0140 0x4321 0 0)) = some 0x4321 := by decide

/-- Vector V-RFI-1. -/
theorem test_rfi_1 :
    look (fun t => (t.regs.a, t.pc, t.sp, t.queueing))
        (step ({ blank with sp := 0xFFFE, queueing := true }.placeWords 0xFFFE [0x0011, 0x0022, 0x8560])) =
      some (0x0011, 0x0022, 0x0000, false) := by decide

/-- Vector V-RFI-2, RFI [SP++] pops three words (decision D15). -/
theorem test_rfi_2 :
    look (fun t => (t.regs.a, t.pc, t.sp, t.queueing))
        (step (({ blank with sp := 0x1000, queueing := true }.placeWords 0x1000 [0x0001, 0x0002, 0x0003]).placeWords 0 [0x6160])) =
      some (0x0002, 0x0003, 0x1003, false) := by decide

/-- Vector V-IAQ-2. -/
theorem test_iaq_2 :
    look (fun t => t.queueing) (step (ab 0x0180 0x8000 0 0)) = some true := by decide

/-- Vector V-IAQ-3. -/
theorem test_iaq_3 :
    look (fun t => t.queueing) (step ({ blank with queueing := true }.placeWords 0 [0x8580])) = some false := by decide

/-- Vector V-HWN-1. -/
theorem test_hwn_1 :
    look (fun t => t.regs.a) (step ({ blank with devices := [quiet, quiet, quiet] }.placeWords 0 [0x0200])) = some 0x0003 := by decide

/-- Vector V-HWQ-1; the device is not activated. -/
theorem test_hwq_1 :
    look (fun t => (t.regs.x, t.regs.y, t.regs.z, t.activated)) (step ({ blank with devices := [quiet] }.placeWords 0 [0x8620])) =
      some (0x1111, 0x2222, 0x0003, []) := by decide

/-- Vector V-HWQ-2. -/
theorem test_hwq_2 :
    stopped (step (blank.placeWords 0 [0x8620])) = some (some (.absentPort 0x0000), 0x0001) := by decide

/-- Vector V-HWI-1, with an interrupt besides. -/
theorem test_hwi_1 :
    look (fun t => (t.regs.c, t.activated, t.queue, t.pc)) (step ({ blank with devices := [busy] }.placeWords 0 [0x8640])) =
      some (0x0001, [0], [0x0042], 0x0001) := by decide

/-- Vector V-HWI-2. -/
theorem test_hwi_2 :
    stopped (step ({ blank with devices := [quiet, quiet] }.placeWords 0 [0x9A40])) = some (some (.absentPort 0x0005), 0x0001) := by decide

/-! ## Nullary instructions (section 2.12 of 95_test_vectors.md) -/

/-- Vector V-NOP-wrap. -/
theorem test_nop_wrap :
    look (fun t => t.pc) (step { blank with pc := 0xFFFF }) = some 0x0000 := by decide

/-- Vector V-CLK, the draw given. -/
theorem test_clk_1 :
    ((loadClock 0x00012345 false blank).regs.i, (loadClock 0x00012345 false blank).regs.j, (loadClock 0x00012345 false blank).ps) =
      (0x0001, 0x2345, 0x0000) := by decide

/-- Vector V-CLK-2, the draw given. -/
theorem test_clk_2 :
    ((loadClock 0x00000003 true blank).regs.i, (loadClock 0x00000003 true blank).regs.j, (loadClock 0x00000003 true blank).ps) =
      (0x0000, 0x0003, 0x0001) := by decide

/-- Vector V-ERR. -/
theorem test_err :
    stopped (step ({ blank with pc := 0x0010 }.placeWords 0x0010 [0xFC00])) =
      some (some (.illegalInstruction 0xFC00), 0x0011) := by decide

/-- Vector V-RSV. -/
theorem test_reserved :
    stopped (step ({ blank with pc := 0x0010 }.placeWords 0x0010 [0x0800])) =
      some (some (.illegalInstruction 0x0800), 0x0011) := by decide

/-! ## Interrupts (section 2.13 of 95_test_vectors.md) -/

/-- Program P5, step 3. -/
theorem test_dispatch_enters :
    look (fun t => (t.regs.c, t.regs.a, t.readMem 0xFFFF, t.readMem 0xFFFE, t.sp, t.pc))
        (step ({ ab 0x9900 0x00AA 0 0 with pc := 0x0003, ia := 0x0010, queue := [0x0005] }.placeWords 0x0010 [0x0041])) =
      some (0x0005, 0x0005, 0x0003, 0x00AA, 0xFFFE, 0x0011) := by decide

/-- Section 2.13: with IA = 0 the message is discarded and SET B, 1 runs. -/
theorem test_dispatch_discards :
    look (fun t => (t.queue, t.regs.b, t.sp, t.regs.a)) (step ({ blank with queue := [0x0005] }.placeWords 0 [0x8821])) = some ([], 0x0001, 0x0000, 0x0000) := by decide

/-- R244: an activated device acts before the step, another does not. -/
theorem test_device_turn :
    look (fun t => (t.regs.x, t.regs.y, t.schedule))
        (step { blank with devices := [quiet, quiet], activated := [1], schedule := [[(1, .setReg .x 5), (0, .setReg .y 6)]] }) =
      some (5, 0, []) := by decide

/-! ## Where the host's word goes -/

/-- The placed word is the first instruction after reset. -/
theorem test_fetch_word_runs_next :
    look (fun t => (t.regs.a, t.pc)) (step (State.reset.withFetchWord 16 0x9801)) = some (0x0005, 0x0001) := by decide

/-- With an interrupt waiting the next instruction is the handler's. -/
theorem test_fetch_word_in_handler :
    look (fun t => (t.regs.a, t.pc))
        (step (State.withFetchWord { blank with queue := [0x0009], ia := 0x0300 } 16 0x9802)) = some (0x000E, 0x0301) := by decide

/-- The interface the host reads is this machine. -/
theorem test_core_is_the_machine :
    Sys2Proof.core.step = step ∧ Sys2Proof.core.reset = State.reset := ⟨rfl, rfl⟩
/-! ## The endless skip's witness -/

/-- RAM full of one word `v` from address `k` on. -/
def filled (v : Word) (k : Nat) : Nat → Memory
  | 0 => []
  | n + 1 => (k, v) :: filled v (k + 1) n

theorem filled_read (v : Word) (n k a : Nat) (h : k ≤ a ∧ a < k + n) : (filled v k n).read a = v := by
  induction n generalizing k with
  | zero => omega
  | succ n ih =>
    by_cases hk : k = a
    · simp [filled, Memory.read, hk]
    · simp only [filled, Memory.read, if_neg hk]
      exact ih (k + 1) (by omega)

theorem filled_wf (v : Word) (hv : v ≠ 0#16) (n k : Nat) (h : k + n ≤ 65536) : Memory.wfFrom k (filled v k n) = true := by
  induction n generalizing k with
  | zero => rfl
  | succ n ih =>
    simp only [filled, Memory.wfFrom, Bool.and_eq_true, decide_eq_true_eq, bne_iff_ne]
    exact ⟨⟨⟨le_refl k, by omega⟩, hv⟩, ih (k + 1) (by omega)⟩

/-- RAM full of `IFB A, A`, which fails for ever while A is 0. -/
def allConditionals : State := { blank with mem := filled 0x0010 0 65536 }

/-! ## Witnesses: for every statement with hypotheses, a state that meets them -/

/-- StepKeepsInvariant, ResetMeetsInvariant's shape on a state with devices, a queue and RAM. -/
theorem test_witness_invariant :
    State.Inv { blank with
      devices := [quiet, busy], activated := [0, 1], queue := [7], mem := [(0, 0x0401), (0xFFFF, 1)] } := by decide

theorem test_witness_step_keeps_invariant : blank.Inv ∧ ∃ t, step blank = .next t := ⟨by decide, _, rfl⟩

theorem test_witness_decode_after_encode :
    (Instr.set .push (.lit 0xFFFF)).wellFormed = true ∧ (Instr.sti (.memNext .j 5) (.lit 30)).wellFormed = true ∧
      Instr.err.wellFormed = true := by decide

theorem test_witness_encode_after_decode :
    decode [0x7FC1, 0x0020, 0x1000, 9] = .ok (.set (.abs 0x1000) (.next 0x20), [9]) ∧
      decode [0x8001] = .ok (.set (.reg .a) (.lit 0xFFFF), []) := ⟨rfl, rfl⟩

theorem test_witness_first_word_tells_length :
    decode [0x0401, 3, 4] = .ok (.set (.reg .a) (.reg .b), [3, 4]) ∧
      decode [0x7BFF, 1, 2] = .ok (.std (.next 2) (.abs 1), []) := ⟨rfl, rfl⟩

/-- Reserved words of each kind, at the ends of their ranges. -/
theorem test_witness_reserved :
    ReservedWord 0x0018 ∧ ReservedWord 0xFFFD ∧ ReservedWord 0x0040 ∧ ReservedWord 0x00E0 ∧ ReservedWord 0x01A0 ∧
      ReservedWord 0x03E0 ∧ ReservedWord 0x0800 ∧ ReservedWord 0xF800 := by
  refine ⟨?_, ?_, ?_, ?_, ?_, ?_, ?_, ?_⟩ <;> decide

/-- Their defined neighbours. -/
theorem test_witness_not_reserved :
    ¬ ReservedWord 0x0017 ∧ ¬ ReservedWord 0xFFFF ∧ ¬ ReservedWord 0x0020 ∧ ¬ ReservedWord 0x0100 ∧
      ¬ ReservedWord 0x0180 ∧ ¬ ReservedWord 0x0240 ∧ ¬ ReservedWord 0x0400 ∧ ¬ ReservedWord 0xFC00 := by
  refine ⟨?_, ?_, ?_, ?_, ?_, ?_, ?_, ?_⟩ <;> decide

/-- BinaryEncoding and UnaryEncoding: words of the lower and the middle field asked for. -/
theorem test_witness_encodings :
    (0x7FC1#16).toNat % 32 = 0x01 ∧ (0xFFFF#16).toNat % 32 = 0x1F ∧ (0x7C20#16).toNat % 1024 = 0x01 * 32 ∧
      (0x9A40#16).toNat % 1024 = 0x12 * 32 := by decide

/-- Both orders of two writes give the same list, which has the canonical form; so does erasing by a write of 0. -/
theorem test_witness_canonical_ram :
    let m := Memory.write (Memory.write [] 5 7) 3 9
    m.wf = true ∧ m = Memory.write (Memory.write [] 3 9) 5 7 ∧ m.write 4 0 = m ∧ m.write 3 0 = [(5, 7)] := by decide

/-- DivAndModAreUnsigned, DviAndMdiTruncate: a divisor that is 0 and one that is not. -/
theorem test_witness_divisors :
    (readBinary (.reg .a) (.lit 0) blank).u = 0#16 ∧ (readBinary (.reg .a) (.lit 0xFFFF) blank).u ≠ 0#16 := by decide

/-- ConditionalsTestAndSkip: 8000 against 7FFF, 1 against 1, 1 against FFFF reach every clause. -/
theorem test_witness_conditionals :
    let i := readBinary (.reg .a) (.reg .b) (ab 0 0x8000 0x7FFF 0)
    let j := readBinary (.reg .a) (.reg .b) (ab 0 1 1 0)
    let k := readBinary (.reg .a) (.reg .b) (ab 0 1 0xFFFF 0)
    i.m &&& i.u = 0#16 ∧ j.m &&& j.u ≠ 0#16 ∧ j.m = j.u ∧ i.m ≠ i.u ∧ i.m.toNat > i.u.toNat ∧ j.m.toNat ≤ j.u.toNat ∧
      k.m.toInt > k.u.toInt ∧ j.m.toInt ≤ j.u.toInt ∧ k.m.toNat < k.u.toNat ∧ j.m.toNat ≥ j.u.toNat ∧
      i.m.toInt < i.u.toInt ∧ j.m.toInt ≥ j.u.toInt := by decide

/-- SkipPassesAChain with no conditional to pass (over a three-word instruction) and with two, the second at the top of RAM. -/
theorem test_witness_skip_chain :
    (let s := skipping 0 0 [0x7FC1]
     (∀ k < 0, IfWord (s.readMem (s.after^[k] s.pc)).toNat) ∧ ¬ IfWord (s.readMem (s.after^[0] s.pc)).toNat) ∧
      (let s := { blank with pc := 0xFFFE, mem := [(0, 0x0401), (0xFFFE, 0x0410), (0xFFFF, 0x0417)] }
       (∀ k < 2, IfWord (s.readMem (s.after^[k] s.pc)).toNat) ∧ ¬ IfWord (s.readMem (s.after^[2] s.pc)).toNat) := by
  decide

/-- SkipWithoutEndIsStuck's other side: RAM full of conditionals. -/
theorem test_witness_endless_skip : ∀ k, IfWord (allConditionals.readMem (allConditionals.after^[k] allConditionals.pc)).toNat := by
  intro k
  have hr : ∀ a : Word, allConditionals.readMem a = 0x0010#16 := fun a =>
    filled_read 0x0010 65536 0 a.toNat ⟨Nat.zero_le _, by simpa using a.isLt⟩
  rw [hr]
  decide

/-- That state meets the invariant. -/
theorem test_witness_endless_skip_invariant : allConditionals.Inv :=
  ⟨filled_wf 0x0010 (by decide) 65536 0 (by omega), by decide, rfl, by decide, by decide, by decide⟩

/-- IntQueuesItsMessage and DeviceActionsTakeEffect at both sides of 256. -/
theorem test_witness_int : (waiting 255).queue.length < 256 ∧ (waiting 256).queue.length ≥ 256 := by
  simp only [waiting_length]; omega

/-- InterruptRegistersReadAndWrite: IAQ's two cases. -/
theorem test_witness_iaq : (readUnary (.lit 1) blank).u ≠ 0#16 ∧ (readUnary (.lit 0) blank).u = 0#16 := by decide

/-- HwqIdentifiesTheDevice and HwiCallsTheDevice: the last port and the first that is absent. -/
theorem test_witness_ports :
    let s := { blank with devices := [quiet, busy] }
    s.devices[(readUnary (.lit 1) s).u.toNat]? = some busy ∧ s.devices.length ≤ (readUnary (.lit 2) s).u.toNat := by decide

/-- Two devices, and one place left in the queue. -/
def nearlyFull : State := { waiting 255 with devices := [quiet, busy] }

/-- HwiCallsTheDevice: an answer of one message for a queue of 255, on the last port. -/
theorem test_witness_hwi :
    nearlyFull.devices[(readUnary (.lit 1) nearlyFull).u.toNat]? = some busy ∧
      busy.script = [.setReg .c 0x0001, .raise 0x0042] :: [] ∧
      nearlyFull.queue.length + (raisedBy [.setReg .c 0x0001, .raise 0x0042]).length ≤ 256 := by
  have hq : nearlyFull.queue.length = 255 := waiting_length 255
  refine ⟨by decide, by decide, ?_⟩
  rw [hq]
  decide

/-- HwiCallsTheDevice: an answer that does nothing. -/
theorem test_witness_hwi_quiet :
    let s := { blank with devices := [quiet, busy] }
    s.devices[(readUnary (.lit 0) s).u.toNat]? = some quiet ∧ quiet.script = [] :: [] ∧
      s.queue.length + (raisedBy []).length ≤ 256 := by decide

/-- IllegalWordsStop: a reserved word at PC, at the top of RAM. -/
theorem test_witness_illegal :
    let s := { blank with pc := 0xFFFF }.writeMem 0xFFFF 0x7FF8
    ReservedWord (s.readMem s.pc).toNat := by decide

/-- StepRunsTheDecodedInstruction: a device's turn, then a dispatch into a handler, then the instruction there. -/
theorem test_witness_step_runs :
    let s := { blank with
      devices := [quiet], activated := [0], schedule := [[(0, .raise 9)]], ia := 0x0300, mem := [(0x0300, 0x9802)] }
    s.halted = none ∧ ∃ t, deviceTurn s = .next t ∧ t.dispatch.pc = 0x0300 ∧
      decode [t.dispatch.readMem t.dispatch.pc, t.dispatch.readMem (t.dispatch.pc + 1#16),
        t.dispatch.readMem (t.dispatch.pc + 2#16)] = .ok (.add (.reg .a) (.lit 5), [0, 0]) :=
  ⟨rfl, _, rfl, rfl, rfl⟩

theorem test_witness_step_runs_idle :
    blank.activated = [] ∧ ({ blank with queueing := true, queue := [1] }.queueing = true) ∧ blank.queue = [] := by decide

/-- PlacedInstructionRuns, with three words from the top of RAM on. -/
theorem test_witness_placed :
    let s := { blank with pc := 0xFFFF }
    (Instr.set (.abs 0x1000) (.next 0x20)).wellFormed = true ∧ s.halted = none ∧ s.activated = [] ∧ s.queue = [] := by decide

/-- DispatchEntersTheHandler, with the head of a queue and with a message that an activated device raises in its turn. -/
theorem test_witness_dispatch_enters :
    (let s := { blank with queue := [5, 6], ia := 0x0010 }
     s.halted = none ∧ ∃ t, deviceTurn s = .next t ∧ t.queueing = false ∧ t.queue = 5 :: [6] ∧ t.ia ≠ 0#16) ∧
      (let s := { blank with devices := [quiet], activated := [0], schedule := [[(0, .raise 9), (0, .setIa 0x0300)]] }
       s.halted = none ∧ ∃ t, deviceTurn s = .next t ∧ t.queueing = false ∧ t.queue = 9 :: [] ∧ t.ia ≠ 0#16) :=
  ⟨⟨rfl, _, rfl, by decide, by decide, by decide⟩, ⟨rfl, _, rfl, by decide, by decide, by decide⟩⟩

/-- DispatchDiscardsOrHolds, each clause, the last after a turn of an activated device. -/
theorem test_witness_dispatch_discards :
    (let s := { blank with queue := [5, 6] }
     s.halted = none ∧ ∃ t, deviceTurn s = .next t ∧ t.queueing = false ∧ t.queue = 5 :: [6] ∧ t.ia = 0#16) ∧
      (let s := { blank with queue := [5], queueing := true, ia := 1 }
       s.halted = none ∧ ∃ t, deviceTurn s = .next t ∧ t.queueing = true) ∧
      (let s := { blank with devices := [quiet], activated := [0], schedule := [[(0, .setReg .x 5)]] }
       s.halted = none ∧ ∃ t, deviceTurn s = .next t ∧ t.queue = [] ∧ t.regs.x = 5) :=
  ⟨⟨rfl, _, rfl, by decide, by decide, by decide⟩, ⟨rfl, _, rfl, by decide⟩, ⟨rfl, _, rfl, by decide, by decide⟩⟩

/-- InterruptRoundTrip: a handler that has changed B, with the stack at the bottom of RAM, where SP wraps. -/
theorem test_witness_round_trip :
    let s := { blank with pc := 0x0123, sp := 1, ia := 0x0300, regs := { blank.regs with a := 0x00AA } }
    let h := ((s.enterInterrupt 5).setReg .b 9)
    h.sp = (s.enterInterrupt 5).sp ∧ h.readMem (s.sp - 1#16) = (s.enterInterrupt 5).readMem (s.sp - 1#16) ∧
      h.readMem (s.sp - 2#16) = (s.enterInterrupt 5).readMem (s.sp - 2#16) ∧ h.readMem (s.sp - 1#16) = 0x0123 ∧
      h.readMem (s.sp - 2#16) = 0x00AA := by decide

/-- QueueIsFirstInFirstOut: a message taken while the instruction adds another, and one taken that a device raised before the step. -/
theorem test_witness_queue :
    (∃ t, step { blank with queue := [1, 2], mem := [(0, 0x9900)] } = .next t ∧ t.queue = [2, 5]) ∧
      ∃ t, step { blank with
        devices := [quiet], activated := [0], schedule := [[(0, .raise 7), (0, .raise 8)]], mem := [(0, 0x9900)] } = .next t ∧
        t.queue = [8, 5] :=
  ⟨⟨_, rfl, by decide⟩, ⟨_, rfl, by decide⟩⟩

/-- The frames: every instruction named in one ends in a next state, with m's location in a register, in RAM and a literal. -/
theorem test_witness_frames_of_stores :
    (∃ t, exec (.set .push (.reg .a)) blank = .next t) ∧ (∃ t, exec (.mod (.reg .a) (.lit 0)) blank = .next t) ∧
      (∃ t, exec (.mdi .ps (.lit 3)) blank = .next t) ∧ (∃ t, exec (.and .sp .pop) blank = .next t) ∧
      (∃ t, exec (.bor .pc (.next 5)) blank = .next t) ∧ ∃ t, exec (.xor (.next 4) (.reg .b)) blank = .next t :=
  ⟨⟨_, rfl⟩, ⟨_, rfl⟩, ⟨_, rfl⟩, ⟨_, rfl⟩, ⟨_, rfl⟩, ⟨_, rfl⟩⟩

/-- The locations those frames speak of: one of each kind. -/
theorem test_witness_locations :
    (readBinary (.reg .c) (.reg .a) blank).loc = .reg .c ∧ (readBinary .push .pop blank).loc = .mem 0 ∧
      (readBinary .sp (.reg .a) blank).loc = .sp ∧ (readBinary .pc (.reg .a) blank).loc = .pc ∧
      (readBinary .ps (.reg .a) blank).loc = .ps ∧ (readBinary (.next 4) (.reg .a) blank).loc = .lit 4 ∧
      (readUnary .pop blank).loc = .mem 0 ∧ (readUnary (.lit 4) blank).loc = .lit 4 := by decide

theorem test_witness_frames_with_ps :
    (∀ i ∈ [Instr.add (.reg .a) (.reg .b), .sub (.mem .a) .pop, .mul .push (.lit 3), .mli .ps .ps, .div .sp (.lit 0)],
      ∃ t, exec i blank = .next t) ∧
    ∀ i ∈ [Instr.dvi (.reg .a) (.reg .b), .lls (.next 1) (.lit 2), .lrs .pc (.lit 3), .ars .peek (.lit 4), .adx .ps .ps,
      .sbx (.abs 4) .ps], ∃ t, exec i blank = .next t := by
  constructor <;> intro i hi <;> simp only [List.mem_cons, List.not_mem_nil, or_false] at hi
  · rcases hi with rfl | rfl | rfl | rfl | rfl <;> exact ⟨_, rfl⟩
  · rcases hi with rfl | rfl | rfl | rfl | rfl | rfl <;> exact ⟨_, rfl⟩

theorem test_witness_frame_sti_std :
    (∃ t, exec (.sti (.mem .j) (.mem .i)) blank = .next t) ∧ ∃ t, exec (.std (.reg .i) .pop) blank = .next t :=
  ⟨⟨_, rfl⟩, ⟨_, rfl⟩⟩

/-- A conditional that passes with a pop, and one that skips. -/
theorem test_witness_frame_conditionals :
    (∃ t, exec (.ife .push .pop) blank = .next t) ∧ ∃ t, exec (.ifn (.reg .a) (.lit 0)) blank = .next t := ⟨⟨_, rfl⟩, ⟨_, rfl⟩⟩

theorem test_witness_frames_unary :
    (∀ i ∈ [Instr.jsr .pop, .rfi .pop, .int (.lit 5), .ias .pc], ∃ t, exec i blank = .next t) ∧
    (∀ i ∈ [Instr.iaq (.lit 1), .iag .peek, .hwn (.reg .a), .nop, .clk], ∃ t, exec i blank = .next t) := by
  constructor <;> intro i hi <;> simp only [List.mem_cons, List.not_mem_nil, or_false] at hi
  · rcases hi with rfl | rfl | rfl | rfl <;> exact ⟨_, rfl⟩
  · rcases hi with rfl | rfl | rfl | rfl | rfl <;> exact ⟨_, rfl⟩

theorem test_witness_frames_hardware :
    let s := { blank with devices := [quiet, busy] }
    (∃ t, exec (.hwq (.lit 0)) s = .next t) ∧ (∃ t, exec (.hwi (.lit 1)) s = .next t) ∧ ∃ t, exec (.hwn .sp) s = .next t :=
  ⟨⟨_, rfl⟩, ⟨_, rfl⟩, ⟨_, rfl⟩⟩

/-- InstructionsStopOnlyAsSpecified: an instruction of each kind that stops, but for the skip, whose witness stands above. -/
theorem test_witness_stops :
    (∃ f, exec .err blank = .fault f) ∧ (∃ f, exec (.hwq (.lit 0)) blank = .fault f) ∧
      (∃ f, exec (.hwi (.next 0xFFFF)) blank = .fault f) ∧
      ∃ f, exec (.int (.lit 7)) (waiting 256) = .fault f := by
  obtain ⟨t, ht, _⟩ := test_int_full
  exact ⟨⟨_, rfl⟩, ⟨_, rfl⟩, ⟨_, rfl⟩, _, ht⟩

theorem skipFrom_filled (n : Nat) (pc : Word) : skipFrom n allConditionals.mem pc = none := by
  induction n generalizing pc with
  | zero => rfl
  | succ n ih =>
    rw [skipFrom_more, ih]
    rw [show allConditionals.mem.read pc.toNat = 0x0010#16 from
      filled_read 0x0010 65536 0 pc.toNat ⟨Nat.zero_le _, by simpa using pc.isLt⟩]
    decide

/-- The skip's stop: IFB A, A with A = 0 in RAM full of conditionals. -/
theorem test_witness_stop_of_skip : ∃ f, exec (.ifb (.reg .a) (.reg .a)) allConditionals = .fault f := by
  rcases conditional_cases (fun m u => (m &&& u) != 0#16) (.reg .a) (.reg .a) allConditionals with ⟨ht, _⟩ | ⟨_, he⟩
  · exact absurd ht (by decide)
  · rcases (readBinary (.reg .a) (.reg .a) allConditionals).st.skip_cases with ⟨pc, h, _⟩ | ⟨_, h⟩
    · rw [readBinary_st_mem, skipFrom_filled] at h
      cases h
    · exact ⟨_, he.trans h⟩

/-- FaultsAreFinal. -/
theorem test_witness_faults_final :
    (∃ f, step (blank.writeMem 0 0xFC00) = .fault f) ∧ ∃ f, step { blank with halted := some .onFire } = .fault f :=
  ⟨⟨_, rfl⟩, ⟨_, rfl⟩⟩

/-- WritersOfTheInterruptState: an instruction outside every exception, and the writers. -/
theorem test_witness_writers :
    (∃ t, exec .nop blank = .next t) ∧ (∃ t, exec (.ias (.lit 5)) blank = .next t ∧ t.ia ≠ blank.ia) ∧
      (∃ t, exec (.int (.lit 5)) blank = .next t ∧ t.queue ≠ blank.queue) ∧
      ∃ t, exec (.iaq (.lit 5)) blank = .next t ∧ t.queueing ≠ blank.queueing :=
  ⟨⟨_, rfl⟩, ⟨_, rfl, by decide⟩, ⟨_, rfl, by decide⟩, ⟨_, rfl, by decide⟩⟩

/-- DeviceSetIsFixed: a step with an activated device that does something, then an HWI of the other. -/
theorem test_witness_devices_fixed :
    let s := { blank with devices := [quiet, busy], activated := [0], schedule := [[(0, .setReg .x 5)]], mem := [(0, 0x8A40)] }
    ∃ t, step s = .next t ∧ t.activated = [0, 1] ∧ t.regs.x = 5 := ⟨_, rfl, by decide, by decide⟩

/-- InactiveDevicesDoNothing: a turn of moves of other ports only, a mixed turn, and a schedule used up. -/
theorem test_witness_inactive :
    let s := { blank with devices := [quiet, busy], activated := [0], schedule := [[(1, .raise 5), (7, .setPc 9)], []] }
    s.activated ≠ [] ∧ s.schedule = [(1, .raise 5), (7, .setPc 9)] :: [[]] ∧
      (∀ mv ∈ [((1 : Nat), DeviceAction.raise 5), (7, .setPc 9)], mv.1 ∉ s.activated) ∧
      { s with schedule := [[(1, .raise 5), (0, .setSp 9)]] }.schedule = [(1, .raise 5), (0, .setSp 9)] :: [] ∧
      { s with schedule := [] }.schedule = [] := by decide

/-- DeviceActionsTakeEffect: a called device with an answer in its script, and one whose script is used up. -/
theorem test_witness_device_actions :
    let s := { blank with devices := [busy, { quiet with script := [] }] }
    s.devices[(readUnary (.lit 0) s).u.toNat]? = some busy ∧ busy.script = [.setReg .c 0x0001, .raise 0x0042] :: [] ∧
      s.devices[(readUnary (.lit 1) s).u.toNat]? = some { quiet with script := [] } ∧ { quiet with script := [] }.script = [] := by
  decide

/-- SelfLoopStaysForEver: in the middle of RAM with nothing queued, at its top with a message held back, and with IA = 0 and two
messages to discard. -/
theorem test_witness_self_loop :
    (let s := { blank with pc := 0x0009, ia := 0x0100, mem := [(0x0009, 0x8B83)] }
     s.AtSelfLoop ∧ s.activated = []) ∧
      (let s := { blank with pc := 0xFFFF, ia := 0x0100, mem := [(0xFFFF, 0x8B83)], queue := [1], queueing := true }
       s.AtSelfLoop ∧ s.activated = []) ∧
      (let s := { blank with pc := 0x0009, mem := [(0x0009, 0x8B83)], queue := [1, 2] }
       s.AtSelfLoop ∧ s.activated = []) := by decide

end Sys2Proof.Tests
end

section
/-! PROOFS. Which first words decode to a binary instruction (30_encoding.md R52, R55, R57). -/

namespace Sys2Proof

/-- With a word to spare every upper code is read, and takes that word exactly if the code has a NEXT (R55, R72). -/
theorem decodeU_cons (c : BitVec 6) (n : Word) (ws : List Word) :
    ∃ u, decodeU c (n :: ws) = .ok (u, if hasNext c.toNat then ws else n :: ws) := by
  obtain ⟨k, hk⟩ := c
  interval_cases k <;> exact ⟨_, rfl⟩

/-- With a word to spare every middle code is read, and takes that word exactly if the code has a NEXT (R55, R73). -/
theorem decodeM_cons (c : BitVec 5) (n : Word) (ws : List Word) :
    ∃ m, decodeM c (n :: ws) = .ok (m, if hasNext c.toNat then ws else n :: ws) := by
  obtain ⟨k, hk⟩ := c
  interval_cases k <;> exact ⟨_, rfl⟩

theorem decodeBinary_of_operands {w : Word} {mk : MOperand → UOperand → Instr} {u : UOperand} {m : MOperand}
    {ws wsU wsM : List Word} (hmk : binaryOpcode (fieldL w).toNat = some mk) (hu : decodeU (fieldU w) ws = .ok (u, wsU))
    (hm : decodeM (fieldM w) wsU = .ok (m, wsM)) : decodeBinary w ws = .ok (mk m u, wsM) := by
  simp only [decodeBinary, hmk, hu, hm]

/-- Two further words are enough for the operands of a binary instruction: u takes at most one of them and leaves one for m. -/
theorem decodeBinary_of_opcode {w : Word} {mk : MOperand → UOperand → Instr}
    (hmk : binaryOpcode (fieldL w).toNat = some mk) (a b : Word) :
    ∃ m u rest, decodeBinary w [a, b] = .ok (mk m u, rest) := by
  obtain ⟨u, hu⟩ := decodeU_cons (fieldU w) a [b]
  cases hn : hasNext (fieldU w).toNat <;> rw [hn] at hu
  case false =>
    obtain ⟨m, hm⟩ := decodeM_cons (fieldM w) a [b]
    exact ⟨m, u, _, decodeBinary_of_operands hmk hu hm⟩
  case true =>
    obtain ⟨m, hm⟩ := decodeM_cons (fieldM w) b []
    exact ⟨m, u, _, decodeBinary_of_operands hmk hu hm⟩

namespace Machine

/-- A row of the binary opcode table is the decoding of every first word with that lower field. -/
theorem binaryEncoding_of_opcode {op : Nat} {mk : MOperand → UOperand → Instr} (hmk : binaryOpcode op = some mk) :
    BinaryEncoding op mk := by
  intro w a b hw
  have hl : (fieldL w).toNat = op := (toNat_fieldL w).trans hw
  have hne : fieldL w ≠ 0#5 := by
    intro h0
    rw [← hl, h0] at hmk
    cases hmk
  have hd : decode [w, a, b] = decodeBinary w [a, b] := if_pos hne
  rw [hd]
  exact decodeBinary_of_opcode (hl ▸ hmk) a b

end Machine
end Sys2Proof
end

section
/-! PROOFS. The result words of the unsigned and the 32-bit computations, as bit vectors (41_binary_alu.md R103 to R107, R122). -/

namespace Sys2Proof.Machine

/-! ### Truncation (R5) -/

theorem trunc16_natCast (n : Nat) : trunc16 n = BitVec.ofNat 16 n := BitVec.ofInt_natCast 16 n

/-- The low word of an integer's 32-bit pattern. -/
theorem trunc16_eq_extractLsb' (t : Int) : trunc16 t = (BitVec.ofInt 32 t).extractLsb' 0 16 := by
  apply BitVec.eq_of_toNat_eq
  simp only [trunc16, BitVec.toNat_ofInt, BitVec.extractLsb'_toNat, Nat.shiftRight_zero]
  omega

/-- The high word of an integer's 32-bit pattern. -/
theorem trunc16_div_eq_extractLsb' (t : Int) : trunc16 (t / 65536) = (BitVec.ofInt 32 t).extractLsb' 16 16 := by
  apply BitVec.eq_of_toNat_eq
  simp only [trunc16, BitVec.toNat_ofInt, BitVec.extractLsb'_toNat, Nat.shiftRight_eq_div_pow]
  omega

/-! ### Products (R103, R104) -/

/-- The two words of a 32-bit value: bits 15:0 for m, bits 31:16 for PS. -/
def WordAndPs.ofBits (p : BitVec 32) : WordAndPs := { word := p.extractLsb' 0 16, ps := p.extractLsb' 16 16 }

theorem WordAndPs.ofBits_ofInt (t : Int) : ofBits (BitVec.ofInt 32 t) = { word := trunc16 t, ps := trunc16 (t / 65536) } := by
  rw [ofBits, trunc16_div_eq_extractLsb', trunc16_eq_extractLsb' t]

theorem mulWords_eq_ofBits (m u : Word) : mulWords m u = .ofBits (m.zeroExtend 32 * u.zeroExtend 32) :=
  calc mulWords m u
    _ = .ofBits (BitVec.ofInt 32 ((m.toNat : Int) * u.toNat)) := (WordAndPs.ofBits_ofInt _).symm
    _ = .ofBits (m.zeroExtend 32 * u.zeroExtend 32) := by
      rw [BitVec.ofInt_mul, BitVec.ofInt_natCast, BitVec.ofInt_natCast, BitVec.ofNat_toNat, BitVec.ofNat_toNat]

theorem mliWords_eq_ofBits (m u : Word) : mliWords m u = .ofBits (m.signExtend 32 * u.signExtend 32) :=
  calc mliWords m u
    _ = .ofBits (BitVec.ofInt 32 (signed m * signed u % 4294967296)) := (WordAndPs.ofBits_ofInt _).symm
    _ = .ofBits (BitVec.ofInt 32 (signed m * signed u)) := by
      congr 1
      apply BitVec.eq_of_toNat_eq
      simp only [BitVec.toNat_ofInt]
      omega
    _ = .ofBits (m.signExtend 32 * u.signExtend 32) := by
      rw [BitVec.ofInt_mul]
      rfl

/-! ### Unsigned division (R105, R107) -/

theorem divWords_zero (m : Word) : divWords m 0#16 = { word := 0#16, ps := 0#16 } := rfl

theorem modWord_zero (m : Word) : modWord m 0#16 = 0#16 := rfl

theorem divWords_of_ne_zero (m : Word) {u : Word} (hu : u ≠ 0#16) :
    divWords m u = { word := m / u, ps := BitVec.ofNat 16 (m.toNat * 65536 / u.toNat) } := by
  rw [divWords, if_neg hu, trunc16_natCast, trunc16_natCast, ← BitVec.udiv_def]

theorem modWord_of_ne_zero (m : Word) {u : Word} (hu : u ≠ 0#16) : modWord m u = m % u := by
  rw [modWord, if_neg hu, trunc16_natCast, ← BitVec.umod_def]

end Sys2Proof.Machine
end

section
/-! PROOFS. What SET, the multiplications, the unsigned divisions and the bitwise instructions leave (41_binary_alu.md). -/

namespace Sys2Proof.Machine

variable (m : MOperand) (u : UOperand) (s : State)

theorem exec_set : exec (.set m u) s = .next (storeWord (fun _ u => u) m u s) := rfl

theorem exec_mul : exec (.mul m u) s = .next (storeWordAndPs (fun m u _ => mulWords m u) m u s) := rfl

theorem exec_mli : exec (.mli m u) s = .next (storeWordAndPs (fun m u _ => mliWords m u) m u s) := rfl

theorem exec_div : exec (.div m u) s = .next (storeWordAndPs (fun m u _ => divWords m u) m u s) := rfl

theorem exec_mod : exec (.mod m u) s = .next (storeWord modWord m u s) := rfl

theorem exec_and : exec (.and m u) s = .next (storeWord (fun m u => m &&& u) m u s) := rfl

theorem exec_bor : exec (.bor m u) s = .next (storeWord (fun m u => m ||| u) m u s) := rfl

theorem exec_xor : exec (.xor m u) s = .next (storeWord (fun m u => m ^^^ u) m u s) := rfl

end Sys2Proof.Machine
end

section
/-! PROOFS. The settled statements about SET, MUL, MLI, DIV, MOD, AND, BOR and XOR. -/

namespace Sys2Proof.Machine

/-- Settles O18: each product's halves are the two words the instruction stores. -/
theorem mulAndMliSplitTheProduct : Obligations.MulAndMliSplitTheProduct := by
  refine ⟨binaryEncoding_of_opcode rfl, binaryEncoding_of_opcode rfl, fun m u s => ⟨?_, ?_⟩⟩
  · rw [exec_mul, storeWordAndPs_eq, mulWords_eq_ofBits, WordAndPs.ofBits]
  · rw [exec_mli, storeWordAndPs_eq, mliWords_eq_ofBits, WordAndPs.ofBits]

/-- Settles O19, by the two cases of the divisor. -/
theorem divAndModAreUnsigned : Obligations.DivAndModAreUnsigned := by
  refine ⟨binaryEncoding_of_opcode rfl, binaryEncoding_of_opcode rfl,
    fun m u s => ⟨fun hu => ⟨?_, ?_⟩, fun hu => ⟨?_, ?_⟩⟩⟩
  · rw [exec_div, storeWordAndPs_eq, hu, divWords_zero]
  · rw [exec_mod, storeWord_eq, hu, modWord_zero]
  · rw [exec_div, storeWordAndPs_eq, divWords_of_ne_zero _ hu]
  · rw [exec_mod, storeWord_eq, modWord_of_ne_zero _ hu]

/-- Settles O16: SET is the one-word store whose result is u. -/
theorem setStoresU : Obligations.SetStoresU :=
  ⟨binaryEncoding_of_opcode rfl, fun m u s => by rw [exec_set, storeWord_eq]⟩

/-- Settles O21: each is the one-word store of its bitwise result, which leaves PS to the location of m. -/
theorem logicIsBitwise : Obligations.LogicIsBitwise := by
  refine ⟨binaryEncoding_of_opcode rfl, binaryEncoding_of_opcode rfl, binaryEncoding_of_opcode rfl,
    fun m u s => ⟨?_, ?_, ?_⟩⟩
  · rw [exec_and, storeWord_eq]
  · rw [exec_bor, storeWord_eq]
  · rw [exec_xor, storeWord_eq]

end Sys2Proof.Machine
end

section
/-! PROOFS. The two ends of a conditional, and the test of each of the eight (42_binary_conditional.md R140 to R150). -/

namespace Sys2Proof.Machine

section
variable {test : Word → Word → Bool} {m : MOperand} {u : UOperand} {s : State}

theorem conditional_of_test_true (ht : test (readBinary m u s).m (readBinary m u s).u = true) :
    conditional test m u s = .next (readBinary m u s).st := if_pos ht

theorem conditional_of_test_false (ht : test (readBinary m u s).m (readBinary m u s).u = false) :
    conditional test m u s = (readBinary m u s).st.skip := if_neg (Bool.eq_false_iff.mp ht)

end

variable (m : MOperand) (u : UOperand) (s : State)

theorem exec_ifb : exec (.ifb m u) s = conditional (fun m u => (m &&& u) != 0#16) m u s := rfl

theorem exec_ifc : exec (.ifc m u) s = conditional (fun m u => (m &&& u) == 0#16) m u s := rfl

theorem exec_ife : exec (.ife m u) s = conditional (fun m u => m == u) m u s := rfl

theorem exec_ifn : exec (.ifn m u) s = conditional (fun m u => m != u) m u s := rfl

theorem exec_ifg : exec (.ifg m u) s = conditional (fun m u => decide (m.toNat > u.toNat)) m u s := rfl

theorem exec_ifa : exec (.ifa m u) s = conditional (fun m u => decide (m.toInt > u.toInt)) m u s := rfl

theorem exec_ifl : exec (.ifl m u) s = conditional (fun m u => decide (m.toNat < u.toNat)) m u s := rfl

theorem exec_ifu : exec (.ifu m u) s = conditional (fun m u => decide (m.toInt < u.toInt)) m u s := rfl

end Sys2Proof.Machine
end

section
/-! PROOFS. The settled statement about the eight conditionals. -/

namespace Sys2Proof.Machine

/-- Settles O25: each clause fixes the value of the instruction's test, and with it which of the two ends is taken. -/
theorem conditionalsTestAndSkip : Obligations.ConditionalsTestAndSkip := by
  refine ⟨⟨binaryEncoding_of_opcode rfl, binaryEncoding_of_opcode rfl, binaryEncoding_of_opcode rfl,
    binaryEncoding_of_opcode rfl, binaryEncoding_of_opcode rfl, binaryEncoding_of_opcode rfl,
    binaryEncoding_of_opcode rfl, binaryEncoding_of_opcode rfl⟩, fun m u s => ?_⟩
  intro i
  rw [exec_ifb, exec_ifc, exec_ife, exec_ifn, exec_ifg, exec_ifa, exec_ifl, exec_ifu]
  refine ⟨fun h => ⟨?ifb_passes, ?ifc_skips⟩, fun h => ⟨?ifc_passes, ?ifb_skips⟩, fun h => ⟨?ife_passes, ?ifn_skips⟩,
    fun h => ⟨?ifn_passes, ?ife_skips⟩, fun h => ?ifg_passes, fun h => ?ifg_skips, fun h => ?ifa_passes,
    fun h => ?ifa_skips, fun h => ?ifl_passes, fun h => ?ifl_skips, fun h => ?ifu_passes, fun h => ?ifu_skips⟩
  case ifb_passes | ifn_passes => exact conditional_of_test_true (bne_iff_ne.mpr h)
  case ifb_skips | ifn_skips => exact conditional_of_test_false (bne_eq_false_iff_eq.mpr h)
  case ifc_passes | ife_passes => exact conditional_of_test_true (beq_iff_eq.mpr h)
  case ifc_skips | ife_skips => exact conditional_of_test_false (beq_eq_false_iff_ne.mpr h)
  case ifg_passes | ifa_passes | ifl_passes | ifu_passes => exact conditional_of_test_true (decide_eq_true h)
  case ifg_skips | ifa_skips | ifl_skips | ifu_skips =>
    exact conditional_of_test_false (decide_eq_false (not_lt.mpr h))

end Sys2Proof.Machine
end

section
/-! PROOFS. Which first words decode to a unary instruction (30_encoding.md R53, R55, R57). -/

namespace Sys2Proof

theorem decodeUnary_of_operand {w : Word} {mk : UOperand → Instr} {u : UOperand} {ws rest : List Word}
    (hmk : unaryOpcode (fieldM w).toNat = some mk) (hu : decodeU (fieldU w) ws = .ok (u, rest)) :
    decodeUnary w ws = .ok (mk u, rest) := by
  simp only [decodeUnary, hmk, hu]

/-- The format is told in the order lower field, middle field (R51). -/
theorem decode_eq_decodeUnary {w : Word} (hl : fieldL w = 0#5) (hm : fieldM w ≠ 0#5) (ws : List Word) :
    decode (w :: ws) = decodeUnary w ws := by
  rw [decode, if_neg (not_not_intro hl), if_pos hm]

namespace Machine

/-- A row of the unary opcode table is the decoding of every first word with that middle field and a lower field of 0. -/
theorem unaryEncoding_of_opcode {op : Nat} {mk : UOperand → Instr} (hmk : unaryOpcode op = some mk) :
    UnaryEncoding op mk := by
  intro w a b hw
  have hl : fieldL w = 0#5 := BitVec.eq_of_toNat_eq ((toNat_fieldL w).trans (by simp only [BitVec.toNat_ofNat]; omega))
  have hop : (fieldM w).toNat = op := (toNat_fieldM w).trans (by omega)
  have hm : fieldM w ≠ 0#5 := by
    intro h0
    rw [← hop, h0] at hmk
    cases hmk
  obtain ⟨u, hu⟩ := decodeU_cons (fieldU w) a [b]
  rw [decode_eq_decodeUnary hl hm]
  exact ⟨u, _, decodeUnary_of_operand (hop ▸ hmk) hu⟩

end Machine
end Sys2Proof
end

section
/-! PROOFS. What JSR, IAG, IAS, IAQ and HWN leave (43_unary.md R160, R162, R163, R165, R166). -/

namespace Sys2Proof.Machine

variable (u : UOperand) (s : State)

theorem readUnary_st_pc_eq_nextAddressU : (readUnary u s).st.pc = nextAddressU u s.pc := by
  rw [readUnary_st_pc, nextAddressU, BitVec.ofNat_add, BitVec.add_assoc]
  rfl

theorem readUnary_st_sp_eq_spAfterU : (readUnary u s).st.sp = spAfterU u s.sp := readUnary_st_sp u s

/-- Reading the operand of a unary instruction moves PC past its words and SP past a popped word, and changes nothing else (R169). -/
theorem readUnary_st_eq : (readUnary u s).st = { s with pc := nextAddressU u s.pc, sp := spAfterU u s.sp } :=
  calc (readUnary u s).st
    _ = { s with pc := (readUnary u s).st.pc, sp := (readUnary u s).st.sp } := by cases u <;> rfl
    _ = { s with pc := nextAddressU u s.pc, sp := spAfterU u s.sp } := by
      rw [readUnary_st_pc_eq_nextAddressU, readUnary_st_sp_eq_spAfterU]

theorem exec_jsr :
    exec (.jsr u) s = .next { (readUnary u s).st.push (readUnary u s).st.pc with pc := (readUnary u s).u } := rfl

theorem exec_iag : exec (.iag u) s = .next (writeLoc (readUnary u s).loc (readUnary u s).st.ia (readUnary u s).st) := rfl

theorem exec_ias : exec (.ias u) s = .next { (readUnary u s).st with ia := (readUnary u s).u } := rfl

theorem exec_iaq : exec (.iaq u) s = .next { (readUnary u s).st with queueing := (readUnary u s).u != 0#16 } := rfl

theorem exec_hwn :
    exec (.hwn u) s =
      .next (writeLoc (readUnary u s).loc (BitVec.ofNat 16 (readUnary u s).st.devices.length) (readUnary u s).st) := rfl

end Sys2Proof.Machine
end

section
/-! PROOFS. The settled statements about JSR, IAG, IAS, IAQ and HWN. -/

namespace Sys2Proof.Machine

/-- Settles O28: the push starts from the state that reading u leaves, whose PC is the following instruction's address. -/
theorem jsrPushesAndJumps : Obligations.JsrPushesAndJumps := by
  refine ⟨unaryEncoding_of_opcode rfl, fun u s => ?_⟩
  rw [exec_jsr, readUnary_st_eq]
  rfl

/-- Settles O30: reading u leaves IA alone, and u's two cases are the two values of IAQ's test. -/
theorem interruptRegistersReadAndWrite : Obligations.InterruptRegistersReadAndWrite := by
  refine ⟨unaryEncoding_of_opcode rfl, unaryEncoding_of_opcode rfl, unaryEncoding_of_opcode rfl,
    fun u s => ⟨?iag, exec_ias u s, fun hu => ?iaq_on, fun hu => ?iaq_off⟩⟩
  case iag => rw [exec_iag, readUnary_st_ia]
  case iaq_on => rw [exec_iaq, bne_iff_ne.mpr hu]
  case iaq_off => rw [exec_iaq, bne_eq_false_iff_eq.mpr hu]

/-- Settles O32: reading u leaves the connected devices alone. -/
theorem hwnCountsDevices : Obligations.HwnCountsDevices :=
  ⟨unaryEncoding_of_opcode rfl, fun u s => by rw [exec_hwn, readUnary_st_devices]⟩

end Sys2Proof.Machine
end

section
/-! PROOFS. What NOP leaves, and the settled statement about it (44_nullary.md R190). -/

namespace Sys2Proof.Machine

theorem exec_nop (s : State) : exec .nop s = .next s.advance := rfl

/-- Settles O36: 0x0000 is the first word of opcode 0x00 in R57's nullary table, and NOP ends after the advance of the fetch. -/
theorem nopOnlyAdvances : Obligations.NopOnlyAdvances := by
  refine ⟨?decoding, fun s => ?effect⟩
  case decoding => exact decode_nullary (op := 0x00) rfl []
  case effect => exact exec_nop s

end Sys2Proof.Machine
end

section
/-! PROOFS. The three formats of an instruction: its row in an opcode table, its encoding, its length (30_encoding.md R51 to R57). -/

namespace Sys2Proof

/-- Every instruction is a row of one of the three opcode tables, and its encoding and well-formedness are its format's. -/
theorem Instr.format_cases (i : Instr) :
    (∃ op mk m u, i = mk m u ∧ op ≠ 0#5 ∧ binaryOpcode op.toNat = some mk ∧
        encode i = encodeBinary op m u ∧ i.wellFormed = u.wellFormed) ∨
      (∃ op mk u, i = mk u ∧ op ≠ 0#5 ∧ unaryOpcode op.toNat = some mk ∧
        encode i = encodeUnary op u ∧ i.wellFormed = u.wellFormed) ∨
      (∃ op, nullaryOpcode op.toNat = some i ∧ encode i = encodeNullary op) := by
  cases i with
  | set m u | add m u | sub m u | mul m u | mli m u | div m u | dvi m u | mod m u | mdi m u | and m u | bor m u
  | xor m u | lls m u | lrs m u | ars m u | ifb m u | ifc m u | ife m u | ifn m u | ifg m u | ifa m u | ifl m u
  | ifu m u | adx m u | sbx m u | sti m u | std m u => exact .inl ⟨_, _, m, u, rfl, by decide, rfl, rfl, rfl⟩
  | jsr u | int u | iag u | ias u | rfi u | iaq u | hwn u | hwq u | hwi u =>
    exact .inr (.inl ⟨_, _, u, rfl, by decide, rfl, rfl, rfl⟩)
  | nop | clk | err => exact .inr (.inr ⟨_, rfl, rfl⟩)

/-- A row of the binary table encodes with its own opcode and nothing but u limits its operands. -/
theorem encode_of_binaryOpcode {op : BitVec 5} {mk : MOperand → UOperand → Instr} (h : binaryOpcode op.toNat = some mk)
    (m : MOperand) (u : UOperand) : encode (mk m u) = encodeBinary op m u ∧ (mk m u).wellFormed = u.wellFormed := by
  obtain ⟨k, hk⟩ := op
  interval_cases k <;> cases h <;> exact ⟨rfl, rfl⟩

theorem encode_of_unaryOpcode {op : BitVec 5} {mk : UOperand → Instr} (h : unaryOpcode op.toNat = some mk)
    (u : UOperand) : encode (mk u) = encodeUnary op u ∧ (mk u).wellFormed = u.wellFormed := by
  obtain ⟨k, hk⟩ := op
  interval_cases k <;> cases h <;> exact ⟨rfl, rfl⟩

theorem encode_of_nullaryOpcode {op : BitVec 6} {i : Instr} (h : nullaryOpcode op.toNat = some i) :
    encode i = encodeNullary op ∧ i.wellFormed = true := by
  obtain ⟨k, hk⟩ := op
  interval_cases k <;> cases h <;> exact ⟨rfl, rfl⟩

/-- Every well-formed instruction has the length its first word tells, at most three words (R50, R55). -/
theorem Instr.encodeLength (i : Instr) : Laws.EncodeLength.Statement i := by
  intro hi
  rcases i.format_cases with ⟨op, mk, m, u, -, hop, -, he, hw⟩ | ⟨op, mk, u, -, hop, -, he, hw⟩ | ⟨op, h, he⟩
  · rw [he]
    exact Laws.EncodeLength.of_binary hop m (hw ▸ hi)
  · rw [he]
    exact Laws.EncodeLength.of_unary hop (hw ▸ hi)
  · rw [he]
    refine ⟨_, _, rfl, ?_, by simp [encodeNullary]⟩
    simp [encodeNullary, instrLength]

end Sys2Proof
end

section
/-! PROOFS. What the decoder has read when it accepts (30_encoding.md R51 to R56, R72, R73). -/

namespace Sys2Proof

/-- From 0x20 on every upper code is that of the short literal it stands for (R56). -/
theorem code_lit_of_code : ∀ c : BitVec 6, 0x20 ≤ c.toNat →
    (UOperand.lit (BitVec.ofNat 16 c.toNat - 0x21#16)).wellFormed = true ∧
      (UOperand.lit (BitVec.ofNat 16 c.toNat - 0x21#16)).code = c := by
  decide

/-- An upper operand that was read is well-formed, and its code and NEXT word are what it was read from. -/
theorem decodeU_ok {c : BitVec 6} {ws rest : List Word} {u : UOperand} (h : decodeU c ws = .ok (u, rest)) :
    u.wellFormed = true ∧ u.code = c ∧ u.nextWords ++ rest = ws := by
  by_cases hc : 0x20 ≤ c.toNat
  · rw [decodeU_short hc] at h
    cases h
    exact ⟨(code_lit_of_code c hc).1, (code_lit_of_code c hc).2, rfl⟩
  · obtain ⟨k, hk⟩ := c
    replace hc : k < 0x20 := not_le.mp hc
    cases ws with
    | nil => interval_cases k <;> cases h <;> exact ⟨rfl, rfl, rfl⟩
    | cons n ws => interval_cases k <;> cases h <;> exact ⟨rfl, rfl, rfl⟩

/-- A middle operand that was read has the code and the NEXT word it was read from. -/
theorem decodeM_ok {c : BitVec 5} {ws rest : List Word} {m : MOperand} (h : decodeM c ws = .ok (m, rest)) :
    m.code = c ∧ m.nextWords ++ rest = ws := by
  obtain ⟨k, hk⟩ := c
  cases ws with
  | nil => interval_cases k <;> cases h <;> exact ⟨rfl, rfl⟩
  | cons n ws => interval_cases k <;> cases h <;> exact ⟨rfl, rfl⟩

theorem decodeBinary_ok {w : Word} {ws rest : List Word} {i : Instr} (h : decodeBinary w ws = .ok (i, rest)) :
    ∃ mk m u wsU, binaryOpcode (fieldL w).toNat = some mk ∧ decodeU (fieldU w) ws = .ok (u, wsU) ∧
      decodeM (fieldM w) wsU = .ok (m, rest) ∧ i = mk m u := by
  unfold decodeBinary at h
  split at h
  · cases h
  · next mk hmk =>
    split at h
    · cases h
    · next u wsU hu =>
      split at h
      · cases h
      · next m wsM hm =>
        cases h
        exact ⟨mk, m, u, wsU, hmk, hu, hm, rfl⟩

theorem decodeUnary_ok {w : Word} {ws rest : List Word} {i : Instr} (h : decodeUnary w ws = .ok (i, rest)) :
    ∃ mk u, unaryOpcode (fieldM w).toNat = some mk ∧ decodeU (fieldU w) ws = .ok (u, rest) ∧ i = mk u := by
  unfold decodeUnary at h
  split at h
  · cases h
  · next mk hmk =>
    split at h
    · cases h
    · next u wsU hu =>
      cases h
      exact ⟨mk, u, hmk, hu, rfl⟩

theorem decodeNullary_ok {w : Word} {ws rest : List Word} {i : Instr} (h : decodeNullary w ws = .ok (i, rest)) :
    nullaryOpcode (fieldU w).toNat = some i ∧ rest = ws := by
  unfold decodeNullary at h
  split at h
  · cases h
  · next i' hi =>
    cases h
    exact ⟨hi, rfl⟩

/-- The format of a first word, told in the order lower field, middle field (R51). -/
theorem decode_cons_cases (w : Word) (ws : List Word) :
    (fieldL w ≠ 0#5 ∧ decode (w :: ws) = decodeBinary w ws) ∨
      (fieldL w = 0#5 ∧ fieldM w ≠ 0#5 ∧ decode (w :: ws) = decodeUnary w ws) ∨
      (fieldL w = 0#5 ∧ fieldM w = 0#5 ∧ decode (w :: ws) = decodeNullary w ws) := by
  by_cases hl : fieldL w = 0#5
  · by_cases hm : fieldM w = 0#5
    · exact .inr (.inr ⟨hl, hm, by rw [decode, if_neg (not_not_intro hl), if_neg (not_not_intro hm)]⟩)
    · exact .inr (.inl ⟨hl, hm, decode_eq_decodeUnary hl hm ws⟩)
  · exact .inl ⟨hl, if_pos hl⟩

end Sys2Proof
end

section
/-! PROOFS. Which first words the decoder refuses (30_encoding.md R58). -/

namespace Sys2Proof

/-- With two words to spare a binary first word is refused exactly if its opcode has no row. -/
theorem decodeBinary_error_iff (w a b : Word) (ws : List Word) :
    (∃ e, decodeBinary w (a :: b :: ws) = .error e) ↔ (binaryOpcode (fieldL w).toNat).isNone = true := by
  cases hmk : binaryOpcode (fieldL w).toNat with
  | none => exact ⟨fun _ => rfl, fun _ => ⟨.reservedBinary w, by simp only [decodeBinary, hmk]⟩⟩
  | some mk =>
    refine ⟨fun ⟨e, he⟩ => ?_, fun h => by cases h⟩
    obtain ⟨u, hu⟩ := decodeU_cons (fieldU w) a (b :: ws)
    cases hn : hasNext (fieldU w).toNat <;> rw [hn] at hu
    case false =>
      obtain ⟨m, hm⟩ := decodeM_cons (fieldM w) a (b :: ws)
      rw [decodeBinary_of_operands hmk hu hm] at he
      cases he
    case true =>
      obtain ⟨m, hm⟩ := decodeM_cons (fieldM w) b ws
      rw [decodeBinary_of_operands hmk hu hm] at he
      cases he

/-- With a word to spare a unary first word is refused exactly if its opcode has no row. -/
theorem decodeUnary_error_iff (w a : Word) (ws : List Word) :
    (∃ e, decodeUnary w (a :: ws) = .error e) ↔ (unaryOpcode (fieldM w).toNat).isNone = true := by
  cases hmk : unaryOpcode (fieldM w).toNat with
  | none => exact ⟨fun _ => rfl, fun _ => ⟨.reservedUnary w, by simp only [decodeUnary, hmk]⟩⟩
  | some mk =>
    refine ⟨fun ⟨e, he⟩ => ?_, fun h => by cases h⟩
    obtain ⟨u, hu⟩ := decodeU_cons (fieldU w) a ws
    rw [decodeUnary_of_operand hmk hu] at he
    cases he

theorem decodeNullary_error_iff (w : Word) (ws : List Word) :
    (∃ e, decodeNullary w ws = .error e) ↔ (nullaryOpcode (fieldU w).toNat).isNone = true := by
  cases hi : nullaryOpcode (fieldU w).toNat with
  | none => exact ⟨fun _ => rfl, fun _ => ⟨.reservedNullary w, by simp only [decodeNullary, hi]⟩⟩
  | some i => exact ⟨fun ⟨e, he⟩ => by simp [decodeNullary, hi] at he, fun h => by cases h⟩

/-- The binary opcodes without a row (R58). -/
theorem binaryOpcode_isNone_iff : ∀ op < 32, (binaryOpcode op).isNone = true ↔
    op = 0 ∨ op = 0x18 ∨ op = 0x19 ∨ op = 0x1C ∨ op = 0x1D := by
  decide

/-- The unary opcodes without a row (R58); 0 is the nullary format. -/
theorem unaryOpcode_isNone_iff : ∀ op < 32, (unaryOpcode op).isNone = true ↔
    op = 0 ∨ (2 ≤ op ∧ op ≤ 7) ∨ (0x0D ≤ op ∧ op ≤ 0x0F) ∨ (0x13 ≤ op ∧ op ≤ 0x1F) := by
  decide

/-- The nullary opcodes without a row (R58, R193). -/
theorem nullaryOpcode_isNone_iff : ∀ op < 64, (nullaryOpcode op).isNone = true ↔ 2 ≤ op ∧ op ≤ 0x3E := by
  decide

namespace Machine

theorem fieldL_eq_zero_iff (w : Word) : fieldL w = 0#5 ↔ w.toNat % 32 = 0 := by
  rw [← BitVec.toNat_inj, toNat_fieldL]
  rfl

theorem fieldM_eq_zero_iff (w : Word) : fieldM w = 0#5 ↔ w.toNat / 32 % 32 = 0 := by
  rw [← BitVec.toNat_inj, toNat_fieldM]
  rfl

/-- With its NEXT words there, a first word is refused exactly if it is reserved (R58). -/
theorem decode_error_iff_reservedWord (w a b : Word) (ws : List Word) :
    (∃ e, decode (w :: a :: b :: ws) = .error e) ↔ ReservedWord w.toNat := by
  have hw := w.isLt
  rcases decode_cons_cases w (a :: b :: ws) with ⟨hl, hd⟩ | ⟨hl, hm, hd⟩ | ⟨hl, hm, hd⟩ <;> rw [hd]
  · rw [decodeBinary_error_iff, toNat_fieldL, binaryOpcode_isNone_iff _ (by omega)]
    rw [Ne, fieldL_eq_zero_iff] at hl
    unfold ReservedWord
    omega
  · rw [decodeUnary_error_iff, toNat_fieldM, unaryOpcode_isNone_iff _ (by omega)]
    rw [Ne, fieldM_eq_zero_iff] at hm
    rw [fieldL_eq_zero_iff] at hl
    unfold ReservedWord
    omega
  · rw [decodeNullary_error_iff, toNat_fieldU, nullaryOpcode_isNone_iff _ (by omega)]
    rw [fieldM_eq_zero_iff] at hm
    rw [fieldL_eq_zero_iff] at hl
    unfold ReservedWord
    omega

end Machine
end Sys2Proof
end

section
/-! PROOFS. The model's Length and the spec's (30_encoding.md R55), and IsIf (42_binary_conditional.md R141). -/

namespace Sys2Proof.Machine

theorem hasNext_iff_codeHasNext (c : Nat) : hasNext c = true ↔ CodeHasNext c := by
  simp only [hasNext, CodeHasNext, Bool.or_eq_true, Bool.and_eq_true, decide_eq_true_eq, beq_iff_eq]
  omega

theorem toNat_hasNext (c : Nat) : (hasNext c).toNat = if CodeHasNext c then 1 else 0 := by
  simp only [← hasNext_iff_codeHasNext]
  cases hasNext c <;> rfl

theorem instrLength_eq_lengthOf (w : Word) : instrLength w = lengthOf w.toNat := by
  simp only [instrLength, lengthOf, Ne, fieldL_eq_zero_iff, fieldM_eq_zero_iff, toNat_fieldU, toNat_fieldM, toNat_hasNext]

theorem isIf_iff_ifWord (w : Word) : isIf w = true ↔ IfWord w.toNat := by
  rw [isIf, toNat_fieldL, Bool.and_eq_true, decide_eq_true_eq, decide_eq_true_eq]

end Sys2Proof.Machine
end

section
/-! PROOFS. The settled statements about encoding and decoding (30_encoding.md). -/

namespace Sys2Proof.Machine

/-- Settles O5, by the three formats. -/
theorem decodeAfterEncode : Obligations.DecodeAfterEncode := by
  intro i rest hi
  rcases i.format_cases with ⟨op, mk, m, u, rfl, hop, hmk, he, hw⟩ | ⟨op, mk, u, rfl, hop, hmk, he, hw⟩ | ⟨op, hmk, he⟩ <;>
    rw [he]
  · exact decode_binary hop hmk m (hw ▸ hi) rest
  · exact decode_unary hop hmk (hw ▸ hi) rest
  · exact decode_nullary hmk rest

/-- Settles O6: in each format the operands' codes are the fields they were read from, and a first word is its three fields. -/
theorem encodeAfterDecode : Obligations.EncodeAfterDecode := by
  intro ws i rest h
  cases ws with
  | nil => cases h
  | cons w ws =>
    have hfields := firstWord_fields w
    rcases decode_cons_cases w ws with ⟨-, hd⟩ | ⟨hl, -, hd⟩ | ⟨hl, hm, hd⟩ <;> rw [hd] at h
    · obtain ⟨mk, m, u, wsU, hmk, hu, hm, rfl⟩ := decodeBinary_ok h
      obtain ⟨huw, huc, hun⟩ := decodeU_ok hu
      obtain ⟨hmc, hmn⟩ := decodeM_ok hm
      obtain ⟨he, hw⟩ := encode_of_binaryOpcode hmk m u
      refine ⟨hw.trans huw, ?_⟩
      rw [he, encodeBinary, huc, hmc, hfields, List.cons_append, List.append_assoc, hmn, hun]
    · obtain ⟨mk, u, hmk, hu, rfl⟩ := decodeUnary_ok h
      obtain ⟨huw, huc, hun⟩ := decodeU_ok hu
      obtain ⟨he, hw⟩ := encode_of_unaryOpcode hmk u
      refine ⟨hw.trans huw, ?_⟩
      rw [show fieldL w = 0 from hl] at hfields
      rw [he, encodeUnary, huc, hfields, List.cons_append, hun]
    · obtain ⟨hi, rfl⟩ := decodeNullary_ok h
      obtain ⟨he, hw⟩ := encode_of_nullaryOpcode hi
      refine ⟨hw, ?_⟩
      rw [show fieldL w = 0 from hl, show fieldM w = 0 from hm] at hfields
      rw [he, encodeNullary, hfields, List.singleton_append]

/-- Settles O7. -/
theorem reservedWordsAreRefused : Obligations.ReservedWordsAreRefused :=
  fun w a b rest => decode_error_iff_reservedWord w a b rest

/-- Settles O8: what was read is an encoding, whose length its first word tells. -/
theorem firstWordTellsLength : Obligations.FirstWordTellsLength := by
  refine ⟨instrLength_eq_lengthOf, fun w ws i rest h => ?_⟩
  obtain ⟨hi, he⟩ := encodeAfterDecode _ _ _ h
  obtain ⟨w', tail, hcons, hlen, -⟩ := i.encodeLength hi
  have hw : w' = w := by
    rw [hcons] at he
    exact (List.cons.inj he).1
  have htotal := congrArg List.length he
  rw [List.length_append, hlen, hw, instrLength_eq_lengthOf, List.length_cons] at htotal
  omega

/-- Settles O4: each list is the encoding of its instruction. -/
theorem workedEncodingsDecode : Obligations.WorkedEncodingsDecode :=
  ⟨decodeAfterEncode (.set (.reg .a) (.next 0x30#16)) [] rfl, decodeAfterEncode (.set (.reg .a) (.lit 5#16)) [] rfl,
    decodeAfterEncode (.set (.abs 0x1000#16) (.next 0x20#16)) [] rfl, decodeAfterEncode (.add .push .pop) [] rfl,
    decodeAfterEncode (.ife (.reg .a) (.memNext .b 2#16)) [] rfl, decodeAfterEncode (.sub .pc (.lit 1#16)) [] rfl,
    decodeAfterEncode (.jsr (.next 0x100#16)) [] rfl, decodeAfterEncode (.ias (.next 0x20#16)) [] rfl,
    decodeAfterEncode (.rfi (.lit 0#16)) [] rfl, decodeAfterEncode .nop [] rfl, decodeAfterEncode .clk [] rfl⟩

end Sys2Proof.Machine
end

section
/-! PROOFS. The result words of the sums, the signed divisions and the shifts, as bit vectors (41_binary_alu.md R101, R102, R106, R108,
R112 to R118). -/

namespace Sys2Proof.Machine

/-! ### Truncation is a ring homomorphism (R5) -/

theorem trunc16_add (a b : Int) : trunc16 (a + b) = trunc16 a + trunc16 b := BitVec.ofInt_add a b

theorem trunc16_sub (a b : Int) : trunc16 (a - b) = trunc16 a - trunc16 b := by
  rw [Int.sub_eq_add_neg, trunc16_add, BitVec.sub_eq_add_neg]
  exact congrArg _ BitVec.ofInt_neg

@[simp] theorem trunc16_toNat (w : Word) : trunc16 w.toNat = w := by
  rw [trunc16_natCast, BitVec.ofNat_toNat, BitVec.setWidth_eq]

@[simp] theorem trunc16_toInt (w : Word) : trunc16 w.toInt = w := BitVec.ofInt_toInt

/-! ### Sums and differences (R101, R102) -/

theorem addWords_eq (m u : Word) :
    addWords m u = { word := m + u, ps := if m.toNat + u.toNat > 0xFFFF then 1#16 else 0#16 } := by
  have hw : trunc16 ((m.toNat : Int) + u.toNat) = m + u := by simp only [trunc16_add, trunc16_toNat]
  have hps : (m.toNat : Int) + u.toNat > 0xFFFF ↔ m.toNat + u.toNat > 0xFFFF := by omega
  simp only [addWords, hw, hps]

theorem subWords_eq (m u : Word) :
    subWords m u = { word := m - u, ps := if m.toNat < u.toNat then 0xFFFF#16 else 0#16 } := by
  have hw : trunc16 ((m.toNat : Int) - u.toNat) = m - u := by simp only [trunc16_sub, trunc16_toNat]
  have hps : (m.toNat : Int) - u.toNat < 0 ↔ m.toNat < u.toNat := by omega
  simp only [subWords, hw, hps]

/-! ### The incoming PS of ADX and SBX (R117, R118, decision D5) -/

theorem psIn_of_unsigned (h : Config.psInReading = .unsignedPs) (ps : Word) : psIn ps = ps.toNat := by
  simp only [psIn, h, ite_self]

/-- Below 0x8000 the two readings agree. -/
theorem psIn_of_signed (h : Config.psInReading = .signedPs) (ps : Word) : psIn ps = ps.toInt := by
  by_cases hlt : ps.toNat < 0x8000
  · simp only [psIn, hlt, if_true]
    exact (BitVec.toInt_eq_toNat_of_lt (by omega)).symm
  · simp only [psIn, hlt, if_false, h, signed]

/-- Under either reading the incoming PS is PS modulo 65536. -/
@[simp] theorem trunc16_psIn (ps : Word) : trunc16 (psIn ps) = ps := by
  cases h : Config.psInReading with
  | unsignedPs => rw [psIn_of_unsigned h, trunc16_toNat]
  | signedPs => rw [psIn_of_signed h, trunc16_toInt]

theorem adxWords_word (m u ps : Word) : (adxWords m u (psIn ps)).word = m + u + ps := by
  simp only [adxWords, trunc16_add, trunc16_toNat, trunc16_psIn]

theorem sbxWords_word (m u ps : Word) : (sbxWords m u (psIn ps)).word = m - u + ps := by
  simp only [sbxWords, trunc16_add, trunc16_sub, trunc16_toNat, trunc16_psIn]

/-! ### Signed division (R106, R108, decision D6) -/

theorem dviWords_zero (m : Word) : dviWords m 0#16 = { word := 0#16, ps := 0#16 } := rfl

theorem mdiWord_zero (m : Word) : mdiWord m 0#16 = 0#16 := rfl

theorem trunc16_tdiv (m u : Word) : trunc16 (Int.tdiv m.toInt u.toInt) = m.sdiv u := by
  apply BitVec.eq_of_toInt_eq
  rw [BitVec.toInt_sdiv, trunc16, BitVec.toInt_ofInt]

theorem dviWords_of_ne_zero (m : Word) {u : Word} (hu : u ≠ 0#16) :
    dviWords m u = { word := m.sdiv u, ps := BitVec.ofInt 16 ((m.toInt * 65536).tdiv u.toInt) } := by
  simp only [dviWords, if_neg hu, signed, trunc16_tdiv]
  rfl

theorem mdiWord_of_ne_zero (m : Word) {u : Word} (hu : u ≠ 0#16) : mdiWord m u = m.srem u := by
  rw [mdiWord, if_neg hu, signed, signed, ← BitVec.toInt_srem, trunc16_toInt]

/-! ### Shifts: the integer's 32-bit pattern is the 32-bit shift, for every count (R112 to R114, decision D7) -/

theorem ofInt_shiftLeft (m : Word) (k : Nat) :
    BitVec.ofInt 32 ((m.toNat <<< k : Nat) : Int) = m.zeroExtend 32 <<< k := by
  apply BitVec.eq_of_toNat_eq
  rw [BitVec.ofInt_natCast, BitVec.toNat_ofNat, BitVec.toNat_shiftLeft, BitVec.zeroExtend,
    BitVec.toNat_setWidth_of_le (by omega)]

theorem toNat_append_zero (m : Word) : (m ++ 0#16).toNat = m.toNat * 65536 := by
  rw [BitVec.toNat_append]
  simp [Nat.shiftLeft_eq]

theorem toInt_append_zero (m : Word) : (m ++ 0#16).toInt = m.toInt * 65536 := by
  rw [BitVec.toInt_append_zero, Int.mul_comm]
  rfl

theorem ofInt_shiftRight (m : Word) (k : Nat) :
    BitVec.ofInt 32 (((m.toNat * 65536) >>> k : Nat) : Int) = (m ++ 0#16) >>> k := by
  rw [BitVec.ofInt_natCast, ← toNat_append_zero, ← BitVec.toNat_ushiftRight, BitVec.ofNat_toNat]
  exact BitVec.setWidth_eq _

theorem ofInt_sshiftRight (m : Word) (k : Nat) :
    BitVec.ofInt 32 ((m.toInt * 65536) >>> k) = (m ++ 0#16).sshiftRight k := by
  rw [BitVec.sshiftRight_eq, toInt_append_zero]

theorem llsWords_eq (m u : Word) : llsWords m u = .ofBits (m.zeroExtend 32 <<< u.toNat) := by
  rw [← ofInt_shiftLeft, WordAndPs.ofBits_ofInt, llsWords]

/-- LRS and ARS deliver the same two halves in the other order: the high one to m. -/
theorem lrsWords_eq (m u : Word) :
    lrsWords m u =
      { word := ((m ++ 0#16) >>> u.toNat).extractLsb' 16 16, ps := ((m ++ 0#16) >>> u.toNat).extractLsb' 0 16 } := by
  rw [← ofInt_shiftRight, ← trunc16_div_eq_extractLsb', ← trunc16_eq_extractLsb', lrsWords]

theorem arsWords_eq (m u : Word) :
    arsWords m u =
      { word := ((m ++ 0#16).sshiftRight u.toNat).extractLsb' 16 16,
        ps := ((m ++ 0#16).sshiftRight u.toNat).extractLsb' 0 16 } := by
  rw [← ofInt_sshiftRight, ← trunc16_div_eq_extractLsb', ← trunc16_eq_extractLsb', arsWords, signed]

end Sys2Proof.Machine
end

section
/-! PROOFS. What the other computing instructions leave, and what reading the operands of a binary instruction leaves
(40_operands.md R71, 41_binary_alu.md). -/

namespace Sys2Proof.Machine

variable (m : MOperand) (u : UOperand) (s : State)

theorem exec_add : exec (.add m u) s = .next (storeWordAndPs (fun m u _ => addWords m u) m u s) := rfl

theorem exec_sub : exec (.sub m u) s = .next (storeWordAndPs (fun m u _ => subWords m u) m u s) := rfl

theorem exec_dvi : exec (.dvi m u) s = .next (storeWordAndPs (fun m u _ => dviWords m u) m u s) := rfl

theorem exec_mdi : exec (.mdi m u) s = .next (storeWord mdiWord m u s) := rfl

theorem exec_lls : exec (.lls m u) s = .next (storeWordAndPs (fun m u _ => llsWords m u) m u s) := rfl

theorem exec_lrs : exec (.lrs m u) s = .next (storeWordAndPs (fun m u _ => lrsWords m u) m u s) := rfl

theorem exec_ars : exec (.ars m u) s = .next (storeWordAndPs (fun m u _ => arsWords m u) m u s) := rfl

theorem exec_adx : exec (.adx m u) s = .next (storeWordAndPs (fun m u ps => adxWords m u (psIn ps)) m u s) := rfl

theorem exec_sbx : exec (.sbx m u) s = .next (storeWordAndPs (fun m u ps => sbxWords m u (psIn ps)) m u s) := rfl

theorem exec_sti : exec (.sti m u) s = .next (stepIJ 1 (storeWord (fun _ u => u) m u s)) := rfl

theorem exec_std : exec (.std m u) s = .next (stepIJ (-1) (storeWord (fun _ u => u) m u s)) := rfl

/-- I and J step and nothing else changes (R119, R120). -/
theorem stepIJ_eq (d : Word) :
    stepIJ d s = { s with regs := { s.regs with i := s.regs.i + d, j := s.regs.j + d } } := rfl

theorem readBinary_st_pc_eq_nextAddress : (readBinary m u s).st.pc = nextAddress m u s.pc := by
  rw [readBinary_st_pc, nextAddress, BitVec.ofNat_add, BitVec.ofNat_add, ← BitVec.add_assoc, ← BitVec.add_assoc]
  rfl

theorem readBinary_st_sp_eq_spAfter : (readBinary m u s).st.sp = spAfter m u s.sp := readBinary_st_sp m u s

/-- Reading the operands of a binary instruction moves PC past its words and SP by a pop and a push, and changes nothing else (R71). -/
theorem readBinary_st_eq : (readBinary m u s).st = { s with pc := nextAddress m u s.pc, sp := spAfter m u s.sp } :=
  calc (readBinary m u s).st
    _ = { s with pc := (readBinary m u s).st.pc, sp := (readBinary m u s).st.sp } := by cases m <;> cases u <;> rfl
    _ = { s with pc := nextAddress m u s.pc, sp := spAfter m u s.sp } := by
      rw [readBinary_st_pc_eq_nextAddress, readBinary_st_sp_eq_spAfter]

/-- m is read last, from the state the instruction's body starts from (decision D2). -/
theorem readBinary_m_eq : (readBinary m u s).m = readLoc (readBinary m u s).loc (readBinary m u s).st := rfl

end Sys2Proof.Machine
end

section
/-! PROOFS. The settled statements about the sums, the signed divisions, the shifts, STI and STD (41_binary_alu.md). -/

namespace Sys2Proof.Machine

/-- Settles O17: sum and difference as bit vectors, and the exact value's range as a comparison of naturals. -/
theorem addAndSubWithCarry : Obligations.AddAndSubWithCarry := by
  refine ⟨binaryEncoding_of_opcode rfl, binaryEncoding_of_opcode rfl, fun m u s => ⟨?_, ?_⟩⟩
  · rw [exec_add, storeWordAndPs_eq, addWords_eq]
  · rw [exec_sub, storeWordAndPs_eq, subWords_eq]

/-- Settles O20, by the two cases of the divisor. -/
theorem dviAndMdiTruncate : Obligations.DviAndMdiTruncate := by
  refine ⟨binaryEncoding_of_opcode rfl, binaryEncoding_of_opcode rfl,
    fun m u s => ⟨fun hu => ⟨?_, ?_⟩, fun hu => ⟨?_, ?_⟩⟩⟩
  · rw [exec_dvi, storeWordAndPs_eq, hu, dviWords_zero]
  · rw [exec_mdi, storeWord_eq, hu, mdiWord_zero]
  · rw [exec_dvi, storeWordAndPs_eq, dviWords_of_ne_zero _ hu]
  · rw [exec_mdi, storeWord_eq, mdiWord_of_ne_zero _ hu]

/-- Settles O22: each shift's exact integer has the 32-bit shift as its pattern. -/
theorem shiftsFillPs : Obligations.ShiftsFillPs := by
  refine ⟨binaryEncoding_of_opcode rfl, binaryEncoding_of_opcode rfl, binaryEncoding_of_opcode rfl,
    fun m u s => ⟨?_, ?_, ?_⟩⟩
  · rw [exec_lls, storeWordAndPs_eq, llsWords_eq, WordAndPs.ofBits]
  · rw [exec_lrs, storeWordAndPs_eq, lrsWords_eq]
  · rw [exec_ars, storeWordAndPs_eq, arsWords_eq]

/-- Settles O23: the model's incoming PS is the reading's, and either reading is PS modulo 65536. -/
theorem adxAndSbxTakePsIn : Obligations.AdxAndSbxTakePsIn := by
  refine ⟨binaryEncoding_of_opcode rfl, binaryEncoding_of_opcode rfl, fun m u s => ?_⟩
  intro i pin
  have hpin : psIn s.ps = pin := by
    cases h : Config.psInReading with
    | unsignedPs => simp only [pin, h, psIn_of_unsigned]
    | signedPs => simp only [pin, h, psIn_of_signed]
  constructor
  · rw [exec_adx, storeWordAndPs_eq, adxWords_word, hpin]
    rfl
  · rw [exec_sbx, storeWordAndPs_eq, sbxWords_word, hpin]
    rfl

/-- Settles O24: the store of SET, then the step of I and J. -/
theorem stiAndStdStepIJ : Obligations.StiAndStdStepIJ := by
  refine ⟨binaryEncoding_of_opcode rfl, binaryEncoding_of_opcode rfl, fun m u s => ?_⟩
  intro i t
  constructor
  · rw [exec_sti, storeWord_eq, stepIJ_eq]
    rfl
  · rw [exec_std, storeWord_eq, stepIJ_eq]
    simp only [BitVec.sub_eq_add_neg]
    rfl

end Sys2Proof.Machine
end

section
/-! PROOFS. The settled statements about the operand codes and about reading and writing operands (40_operands.md). -/

namespace Sys2Proof.Machine

/-- The value of a short literal's code (R56). -/
theorem ofNat_sub_0x21 (k : Nat) : BitVec.ofNat 16 k - 0x21#16 = BitVec.ofNat 16 (k + 0xFFDF) := by
  rw [BitVec.ofNat_add, BitVec.sub_eq_add_neg]
  rfl

/-- Settles O9: the codes from 0x20 on are short literals; below, each of the 32 codes names one form, whose resolution is its row of R72. -/
theorem upperOperandCodes : Obligations.UpperOperandCodes := by
  intro c n rest s
  by_cases hc : 0x20 ≤ c.toNat
  · have hnext : ¬ CodeHasNext c.toNat := by unfold CodeHasNext; omega
    refine ⟨.lit (BitVec.ofNat 16 c.toNat - 0x21#16), ?_, ?_⟩
    · rw [decodeU_short hc, if_neg hnext]
    · simp (disch := omega) only [if_neg, ofNat_sub_0x21]
      rfl
  · obtain ⟨k, hk⟩ := c
    replace hc : k < 0x20 := not_le.mp hc
    interval_cases k <;> exact ⟨_, rfl, rfl⟩

/-- Settles O10, by the 32 codes: each names one form, whose resolution is its row of R73. -/
theorem middleOperandCodes : Obligations.MiddleOperandCodes := by
  rintro ⟨k, hk⟩ n rest s
  interval_cases k <;> exact ⟨_, rfl, rfl⟩

/-- SET of any form from any form: u goes to m's location in the state that PC and SP have moved on in (R71, R100). -/
theorem exec_set_eq (m : MOperand) (u : UOperand) (s : State) :
    exec (.set m u) s =
      .next (writeLoc (readBinary m u s).loc (readBinary m u s).u
        { s with pc := nextAddress m u s.pc, sp := spAfter m u s.sp }) := by
  rw [exec_set, storeWord_eq, readBinary_st_eq]

/-- ADD of any form to any form: m is read after PC and SP have moved on (R71, R101). -/
theorem exec_add_eq (m : MOperand) (u : UOperand) (s : State) :
    let l := (readBinary m u s).loc
    let t := { s with pc := nextAddress m u s.pc, sp := spAfter m u s.sp }
    exec (.add m u) s =
      .next { writeLoc l (readLoc l t + (readBinary m u s).u) t with
        ps := if (readLoc l t).toNat + (readBinary m u s).u.toNat > 0xFFFF then 1#16 else 0#16 } := by
  rw [exec_add, storeWordAndPs_eq, addWords_eq, readBinary_m_eq, readBinary_st_eq]

/-- Settles O11: each form's location and lengths put into the equation of SET or ADD. -/
theorem operandsAreReadInOrder : Obligations.OperandsAreReadInOrder := by
  refine fun s => ⟨exec_set_eq .push .sp s, exec_set_eq .sp .pop s, exec_set_eq .peek .pop s,
    fun n => exec_set_eq (.abs n) .pc s, fun n => exec_add_eq .pc (.next n) s, ?_⟩
  have hsp : spAfter .push .pop s.sp = s.sp := BitVec.add_sub_cancel _ _
  have hl : (readBinary .push .pop s).loc = .mem s.sp := congrArg Loc.mem hsp
  rw [exec_add_eq, hl, hsp]
  rfl

/-- Settles O12: SET of a register, for each form of u. -/
theorem setReadsEveryUpperForm : Obligations.SetReadsEveryUpperForm := fun r q n s =>
  ⟨exec_set_eq (.reg r) (.reg q) s, exec_set_eq (.reg r) (.mem q) s, exec_set_eq (.reg r) (.memNext q n) s,
    exec_set_eq (.reg r) .pop s, exec_set_eq (.reg r) .peek s, exec_set_eq (.reg r) (.pick n) s, exec_set_eq (.reg r) .sp s,
    exec_set_eq (.reg r) .pc s, exec_set_eq (.reg r) .ps s, exec_set_eq (.reg r) (.abs n) s, exec_set_eq (.reg r) (.next n) s,
    exec_set_eq (.reg r) (.lit n) s⟩

/-- Settles O13: SET from a register, for each form of m. -/
theorem setWritesEveryMiddleForm : Obligations.SetWritesEveryMiddleForm := fun r q n s =>
  ⟨exec_set_eq (.mem r) (.reg q) s, exec_set_eq (.memNext r n) (.reg q) s, exec_set_eq .push (.reg q) s,
    exec_set_eq .peek (.reg q) s, exec_set_eq (.pick n) (.reg q) s, exec_set_eq .sp (.reg q) s, exec_set_eq .pc (.reg q) s,
    exec_set_eq .ps (.reg q) s, exec_set_eq (.abs n) (.reg q) s, exec_set_eq (.next n) (.reg q) s⟩

end Sys2Proof.Machine
end

section
/-! PROOFS. RAM's canonical form is one list for each contents (20_memory.md R30). -/

namespace Sys2Proof.Machine

theorem Memory.wfFrom_cons {lo k : Nat} {v : Word} {m : Memory} :
    Memory.wfFrom lo ((k, v) :: m) = true ↔ lo ≤ k ∧ k < 65536 ∧ v ≠ unlistedWord ∧ Memory.wfFrom (k + 1) m = true := by
  simp only [Memory.wfFrom, Bool.and_eq_true, decide_eq_true_eq, bne_iff_ne, and_assoc]

/-- Below its first address a canonical list holds no word. -/
theorem Memory.read_of_lt {lo a : Nat} {m : Memory} (h : Memory.wfFrom lo m = true) (ha : a < lo) :
    m.read a = unlistedWord := by
  induction m generalizing lo with
  | nil => rfl
  | cons c m ih =>
    obtain ⟨k, v⟩ := c
    obtain ⟨hk, -, -, hm⟩ := Memory.wfFrom_cons.mp h
    rw [Memory.read, if_neg (by omega)]
    exact ih hm (by omega)

theorem Memory.read_cons_self (k : Nat) (v : Word) (m : Memory) : Memory.read ((k, v) :: m) k = v := if_pos rfl

/-- Lists that read alike start at the same address: at the lower of two starts the other list would hold no word. -/
theorem Memory.head_not_lt {lo k k' : Nat} {v v' : Word} {m n : Memory} (hm : Memory.wfFrom lo ((k, v) :: m) = true)
    (hn : Memory.wfFrom lo ((k', v') :: n) = true)
    (h : ∀ a, Memory.read ((k, v) :: m) a = Memory.read ((k', v') :: n) a) : ¬ k < k' := by
  intro hlt
  obtain ⟨-, hk, hv, -⟩ := Memory.wfFrom_cons.mp hm
  obtain ⟨-, hk', hv', hn'⟩ := Memory.wfFrom_cons.mp hn
  have hn'' : Memory.wfFrom k' ((k', v') :: n) = true := Memory.wfFrom_cons.mpr ⟨le_refl _, hk', hv', hn'⟩
  exact hv (by rw [← Memory.read_cons_self k v m, h k, Memory.read_of_lt hn'' hlt])

theorem Memory.eq_of_read_eq {lo : Nat} {m n : Memory} (hm : Memory.wfFrom lo m = true) (hn : Memory.wfFrom lo n = true)
    (h : ∀ a, m.read a = n.read a) : m = n := by
  induction m generalizing lo n with
  | nil =>
    cases n with
    | nil => rfl
    | cons c n =>
      obtain ⟨-, -, hv, -⟩ := Memory.wfFrom_cons.mp hn
      exact absurd ((Memory.read_cons_self c.1 c.2 n).symm.trans (h c.1).symm) hv
  | cons c m ih =>
    obtain ⟨k, v⟩ := c
    cases n with
    | nil =>
      obtain ⟨-, -, hv, -⟩ := Memory.wfFrom_cons.mp hm
      exact absurd ((Memory.read_cons_self k v m).symm.trans (h k)) hv
    | cons c' n =>
      obtain ⟨k', v'⟩ := c'
      have hle := Memory.head_not_lt hm hn h
      have hge := Memory.head_not_lt hn hm (fun a => (h a).symm)
      obtain rfl : k = k' := by omega
      obtain rfl : v = v' := by simpa only [Memory.read_cons_self] using h k
      obtain ⟨-, -, -, hm'⟩ := Memory.wfFrom_cons.mp hm
      obtain ⟨-, -, -, hn'⟩ := Memory.wfFrom_cons.mp hn
      refine congrArg _ (ih hm' hn' fun a => ?_)
      by_cases ha : k = a
      · subst ha
        rw [Memory.read_of_lt hm' (Nat.lt_succ_self k), Memory.read_of_lt hn' (Nat.lt_succ_self k)]
      · simpa only [Memory.read, if_neg ha] using h a

end Sys2Proof.Machine
end

section
/-! PROOFS. The settled statements about reset and RAM (10_state.md section 9, 20_memory.md). -/

namespace Sys2Proof.Machine

/-- Settles O15: two canonical lists that read alike have the same head, and the rest by induction. -/
theorem canonicalRamIsUnique : Obligations.CanonicalRamIsUnique := fun _ _ hm hn h => Memory.eq_of_read_eq hm hn h

/-- Settles O1: the reset values as they are written, and the push's address is 0 - 1. -/
theorem resetLeavesZeros : Obligations.ResetLeavesZeros := by
  refine ⟨fun r => ?regs, rfl, rfl, rfl, rfl, rfl, rfl, rfl, rfl, fun v => ⟨rfl, ?pushed⟩⟩
  case regs => cases r <;> rfl
  case pushed => exact (State.readMem_push State.reset v _).trans (if_pos rfl)

/-- Settles O2: the list of devices is cut at 65535, everything else is empty. -/
theorem resetMeetsInvariant : Obligations.ResetMeetsInvariant :=
  ⟨State.reset_wf, Nat.zero_le _, rfl, List.length_take_le _ _, List.Pairwise.nil, by simp [State.reset]⟩

/-- Settles O14. -/
theorem ramReadsLastWrite : Obligations.RamReadsLastWrite := by
  refine ⟨State.readMem_writeMem, fun s v => ?_⟩
  rw [State.fetchWords, List.head?_cons, State.writeMem_pc, State.readMem_writeMem, if_pos rfl]

end Sys2Proof.Machine
end

section
/-! PROOFS. The skip as an iteration of the next instruction's address (42_binary_conditional.md R141). -/

namespace Sys2Proof.Machine

/-- An iteration in a set of 65536 words repeats itself within 65536 rounds. -/
theorem exists_iterate_add_eq (f : Word → Word) (x : Word) : ∃ i d, 0 < d ∧ i + d ≤ 65536 ∧ f^[i + d] x = f^[i] x := by
  obtain ⟨i, j, hne, heq⟩ :=
    Fintype.exists_ne_map_eq_of_card_lt (fun k : Fin 65537 => (f^[k] x).toFin) (by simp)
  have hval : (f^[i] x) = f^[j] x := BitVec.eq_of_toFin_eq heq
  have hij : (i : Nat) ≠ j := fun h => hne (Fin.ext h)
  rcases Nat.lt_or_gt_of_ne hij with hlt | hlt
  · refine ⟨i, j - i, by omega, by omega, ?_⟩
    rw [Nat.add_sub_cancel' hlt.le, hval]
  · refine ⟨j, i - j, by omega, by omega, ?_⟩
    rw [Nat.add_sub_cancel' hlt.le, hval]

/-- What the first 65536 rounds reach is all that an iteration on words reaches. -/
theorem exists_lt_iterate_eq (f : Word → Word) (x : Word) (k : Nat) : ∃ j < 65536, f^[j] x = f^[k] x := by
  obtain ⟨i, d, hd, hle, heq⟩ := exists_iterate_add_eq f x
  induction k using Nat.strong_induction_on with
  | _ k ih =>
    by_cases hk : k < 65536
    · exact ⟨k, hk, rfl⟩
    · obtain ⟨j, hj, hjk⟩ := ih (k - d) (by omega)
      refine ⟨j, hj, hjk.trans ?_⟩
      calc f^[k - d] x
        _ = f^[(k - d - i) + i] x := by rw [Nat.sub_add_cancel (by omega)]
        _ = f^[k - d - i] (f^[i + d] x) := by rw [Function.iterate_add_apply, heq]
        _ = f^[k] x := by rw [← Function.iterate_add_apply]; congr 2; omega

variable (s : State)

theorem skipOne_eq_after (pc : Word) : skipOne s.mem pc = s.after pc := by
  rw [State.after, ← instrLength_eq_lengthOf]
  rfl

/-- The skip with `fuel` rounds runs out exactly if each of them meets a conditional. -/
theorem skipFrom_eq_none_iff (fuel : Nat) (pc : Word) :
    skipFrom fuel s.mem pc = none ↔ ∀ k < fuel, IfWord (s.readMem (s.after^[k] pc)).toNat := by
  induction fuel generalizing pc with
  | zero => simp [skipFrom]
  | succ fuel ih =>
    rw [Nat.forall_lt_succ_left, Function.iterate_zero_apply, ← isIf_iff_ifWord]
    cases hif : isIf (s.readMem pc) with
    | false => simp [skipFrom_stop hif]
    | true => simp only [skipFrom_more hif, skipOne_eq_after, ih, Function.iterate_succ_apply, true_and]

/-- The skip passes `n` conditionals and one more instruction, given the rounds it takes (decision D9). -/
theorem skipFrom_of_chain {n fuel : Nat} (hn : n < fuel) {pc : Word}
    (hif : ∀ k < n, IfWord (s.readMem (s.after^[k] pc)).toNat) (hstop : ¬ IfWord (s.readMem (s.after^[n] pc)).toNat) :
    skipFrom fuel s.mem pc = some (s.after^[n + 1] pc) := by
  obtain ⟨fuel, rfl⟩ : ∃ f, fuel = f + 1 := ⟨fuel - 1, by omega⟩
  induction n generalizing fuel pc with
  | zero =>
    rw [Function.iterate_zero_apply, ← isIf_iff_ifWord, Bool.not_eq_true] at hstop
    rw [skipFrom_stop hstop, skipOne_eq_after, Function.iterate_one]
  | succ n ih =>
    obtain ⟨fuel, rfl⟩ : ∃ f, fuel = f + 1 := ⟨fuel - 1, by omega⟩
    have h0 : isIf (s.readMem pc) = true := (isIf_iff_ifWord _).mpr (hif 0 (Nat.succ_pos n))
    rw [skipFrom_more h0, skipOne_eq_after, Function.iterate_succ_apply]
    exact ih (fun k hk => hif (k + 1) (by omega)) hstop fuel (by omega)

/-- 65536 rounds are enough to know: the skip runs out of them exactly if it never ends (log entry 12). -/
theorem skipFrom_skipFuel_eq_none_iff :
    skipFrom skipFuel s.mem s.pc = none ↔ ∀ k, IfWord (s.readMem (s.after^[k] s.pc)).toNat := by
  rw [skipFrom_eq_none_iff]
  refine ⟨fun h k => ?_, fun h k _ => h k⟩
  obtain ⟨j, hj, hjk⟩ := exists_lt_iterate_eq s.after s.pc k
  rw [← hjk]
  exact h j hj

end Sys2Proof.Machine
end

section
/-! PROOFS. The settled statements about the skip (42_binary_conditional.md R141). -/

namespace Sys2Proof.Machine

/-- Settles O27: `State.skip` faults exactly if it runs out of rounds. -/
theorem skipWithoutEndIsStuck : Obligations.SkipWithoutEndIsStuck := by
  intro s
  rw [← skipFrom_skipFuel_eq_none_iff]
  rcases s.skip_cases with ⟨pc, hk, hs⟩ | ⟨hk, hs⟩ <;> simp [hk, hs]

/-- Settles O26: a chain that ends does so within 65536 rounds, since else the skip would never end. -/
theorem skipPassesAChain : Obligations.SkipPassesAChain := by
  intro s n hif hstop
  have hn : n < skipFuel := by
    by_contra hge
    have hall := (skipFrom_skipFuel_eq_none_iff s).mp ((skipFrom_eq_none_iff s _ _).mpr fun k hk => hif k (by omega))
    exact hstop (hall n)
  rw [State.skip, skipFrom_of_chain s hn hif hstop]

end Sys2Proof.Machine
end

section
/-! PROOFS. What INT, RFI and the hardware instructions leave (43_unary.md R161, R164, R166 to R168). -/

namespace Sys2Proof.Machine

theorem State.enqueue_of_lt {s : State} (h : s.queue.length < 256) (msg : Word) :
    s.enqueue msg = .next { s with queue := s.queue ++ [msg] } := if_pos h

theorem State.enqueue_of_ge {s : State} (h : 256 ≤ s.queue.length) (msg : Word) :
    s.enqueue msg = .fault (.onFire { s with halted := some .onFire }) := if_neg (not_lt.mpr h)

/-- An absent port's stop (R216). -/
theorem State.raise_absentPort (s : State) (p : Word) :
    s.raise (.absentPort p) = .fault (.absentPort p { s with halted := some (.absentPort p) }) := rfl

section
variable (u : UOperand) (s : State)

theorem exec_int : exec (.int u) s = (readUnary u s).st.enqueue (readUnary u s).u := rfl

theorem exec_rfi : exec (.rfi u) s = .next (readUnary u s).st.returnFromInterrupt := rfl

/-- The return, with SP two words up (R164, R208). -/
theorem State.returnFromInterrupt_eq :
    s.returnFromInterrupt =
      { s with
        queueing := false
        regs := s.regs.set .a (s.readMem s.sp)
        pc := s.readMem (s.sp + 1#16)
        sp := s.sp + 2#16 } := by
  rw [show s.sp + 2#16 = s.sp + 1 + 1 from (BitVec.add_assoc s.sp 1 1).symm]
  rfl

end

/-- What HWI hands to the device's answer: the operand read and the port activated (R168). -/
def State.called (u : UOperand) (s : State) : State :=
  { (readUnary u s).st with activated := insertPort s.activated (readUnary u s).u.toNat }

variable {u : UOperand} {s : State} {d : Device}

theorem exec_hwq_of_device (h : s.devices[(readUnary u s).u.toNat]? = some d) :
    exec (.hwq u) s =
      .next ((((readUnary u s).st.setReg .x d.manufacturer).setReg .y d.hardwareId).setReg .z d.version) := by
  show execHwq u s = _
  simp only [execHwq, readUnary_st_devices, h]

theorem exec_hwq_of_absent (h : s.devices.length ≤ (readUnary u s).u.toNat) :
    exec (.hwq u) s = (readUnary u s).st.raise (.absentPort (readUnary u s).u) := by
  show execHwq u s = _
  simp only [execHwq, readUnary_st_devices, List.getElem?_eq_none h]

theorem exec_hwi_of_device (h : s.devices[(readUnary u s).u.toNat]? = some d) :
    exec (.hwi u) s =
      applyActions (hwiAnswer d (readUnary u s).u.toNat (s.called u)).1
        (hwiAnswer d (readUnary u s).u.toNat (s.called u)).2 := by
  show execHwi u s = _
  simp only [execHwi, State.called, readUnary_st_devices, readUnary_st_activated, h]

theorem exec_hwi_of_absent (h : s.devices.length ≤ (readUnary u s).u.toNat) :
    exec (.hwi u) s = (readUnary u s).st.raise (.absentPort (readUnary u s).u) := by
  show execHwi u s = _
  simp only [execHwi, readUnary_st_devices, List.getElem?_eq_none h]

theorem hwiAnswer_of_script {acts : List DeviceAction} {rest : List (List DeviceAction)} (h : d.script = acts :: rest)
    (port : Nat) (s : State) :
    hwiAnswer d port s = (acts, { s with devices := s.devices.set port { d with script := rest } }) := by
  simp only [hwiAnswer, h]

theorem hwiAnswer_of_no_script (h : d.script = []) (port : Nat) (s : State) :
    hwiAnswer d port s = (Config.onHwi port s.draws s.view, { s with draws := s.draws + 1 }) := by
  simp only [hwiAnswer, h]

/-- HWI of a device with an answer ready (R168, log entry 6). -/
theorem exec_hwi_of_script {acts : List DeviceAction} {rest : List (List DeviceAction)}
    (h : s.devices[(readUnary u s).u.toNat]? = some d) (hs : d.script = acts :: rest) :
    exec (.hwi u) s =
      applyActions acts
        { s.called u with devices := s.devices.set (readUnary u s).u.toNat { d with script := rest } } := by
  rw [exec_hwi_of_device h, hwiAnswer_of_script hs, State.called, readUnary_st_devices]

/-- HWI of a device whose script is used up: some actions, a free value (decision D25). -/
theorem exec_hwi_of_no_script (h : s.devices[(readUnary u s).u.toNat]? = some d) (hs : d.script = []) :
    ∃ acts, exec (.hwi u) s = applyActions acts { s.called u with draws := s.draws + 1 } := by
  refine ⟨Config.onHwi (readUnary u s).u.toNat s.draws (s.called u).view, ?_⟩
  rw [exec_hwi_of_device h, hwiAnswer_of_no_script hs, State.called, readUnary_st_draws]

/-- Actions that start with one that ends in a next state. -/
theorem applyActions_cons {act : DeviceAction} {s t : State} (h : applyAction act s = .next t) (rest : List DeviceAction) :
    applyActions (act :: rest) s = applyActions rest t := by
  simp only [applyActions, h]

end Sys2Proof.Machine
end

section
/-! PROOFS. What CLK and ERR leave (44_nullary.md R191, R192), and what a step runs (00_scope.md R7). -/

namespace Sys2Proof.Machine

theorem exec_clk (s : State) :
    exec .clk s =
      .next { loadClock (clockDraw s.draws s.clock).1 (clockDraw s.draws s.clock).2 s.advance with draws := s.draws + 1 } := rfl

theorem exec_err (s : State) : exec .err s = s.raiseIllegal 0xFC00#16 := rfl

/-- A stop at a word that is no instruction: PC past the word and the mark set (R58, R59). -/
theorem State.raiseIllegal_eq (s : State) (w : Word) :
    s.raiseIllegal w =
      .fault (.illegalInstruction w { s with pc := s.pc + 1#16, halted := some (.illegalInstruction w) }) := rfl

/-- Without an overflow a reading is not below the last one (R191, decision D18). -/
theorem le_clockDraw_of_no_overflow {n : Nat} {last : BitVec 32} (h : (clockDraw n last).2 = false) :
    last.toNat ≤ (clockDraw n last).1.toNat := by
  unfold clockDraw at h ⊢
  cases ho : Config.clockOverflow n with
  | true => simp [ho] at h
  | false =>
    have hlast := last.isLt
    have hmod : (Config.clockReading n).toNat % (2 ^ 32 - last.toNat) < 2 ^ 32 - last.toNat := Nat.mod_lt _ (by omega)
    simp only [Bool.false_eq_true, if_false, BitVec.toNat_ofNat]
    omega

theorem runInstruction_of_decode {s : State} {i : Instr} {rest : List Word} (h : decode s.fetchWords = .ok (i, rest)) :
    runInstruction s = exec i s := by
  simp only [runInstruction, h]

theorem runInstruction_of_error {s : State} {e : DecodeError} (h : decode s.fetchWords = .error e) :
    runInstruction s = s.raiseIllegal (s.readMem s.pc) := by
  simp only [runInstruction, h]

end Sys2Proof.Machine
end

section
/-! PROOFS. The settled statements about INT, RFI, HWQ, HWI, CLK and the words that stop (43_unary.md, 44_nullary.md). -/

namespace Sys2Proof.Machine

/-- Settles O29, by the two sides of the queue's capacity. -/
theorem intQueuesItsMessage : Obligations.IntQueuesItsMessage := by
  refine ⟨unaryEncoding_of_opcode rfl, fun u s => ⟨fun h => ?room, fun h => ?full⟩⟩
  case room => rw [exec_int, State.enqueue_of_lt (by rwa [readUnary_st_queue]), readUnary_st_queue]
  case full => rw [exec_int, State.enqueue_of_ge (by rwa [readUnary_st_queue])]

theorem exec_rfi_eq (u : UOperand) (s : State) :
    exec (.rfi u) s =
      .next { s with
        queueing := false
        regs := s.regs.set .a (s.readMem (spAfterU u s.sp))
        pc := s.readMem (spAfterU u s.sp + 1#16)
        sp := spAfterU u s.sp + 2#16 } := by
  rw [exec_rfi, State.returnFromInterrupt_eq, readUnary_st_eq]
  rfl

/-- Settles O31: the two pops start from SP after u is resolved. -/
theorem rfiPopsAAndPc : Obligations.RfiPopsAAndPc := ⟨unaryEncoding_of_opcode rfl, exec_rfi_eq⟩

/-- Settles O33, by whether the port is a device's. -/
theorem hwqIdentifiesTheDevice : Obligations.HwqIdentifiesTheDevice := by
  refine ⟨unaryEncoding_of_opcode rfl, fun u s => ⟨fun d hd => ?present, fun h => ?absent⟩⟩
  case present =>
    rw [exec_hwq_of_device hd, readUnary_st_eq]
    rfl
  case absent => rw [exec_hwq_of_absent h, State.raise_absentPort]

/-- Settles O34: the answer completes, since its messages fit, and a device leaves alone what the statement says. -/
theorem hwiCallsTheDevice : Obligations.HwiCallsTheDevice := by
  refine ⟨unaryEncoding_of_opcode rfl, fun u s => ⟨fun d acts rest hd hs hroom => ?present, fun h => ?absent⟩⟩
  case absent => rw [exec_hwi_of_absent h, State.raise_absentPort]
  case present =>
    have hexec := exec_hwi_of_script hd hs
    rw [State.called, readUnary_st_eq] at hexec
    obtain ⟨t, ht⟩ := applyActions_completes (acts := acts)
      (s := { s with
        pc := nextAddressU u s.pc
        sp := spAfterU u s.sp
        activated := insertPort s.activated (readUnary u s).u.toNat
        devices := s.devices.set (readUnary u s).u.toNat { d with script := rest } }) hroom
    obtain ⟨hproof, hqueue, -, -⟩ := applyActions_next ht
    have hact : ∀ p, p ∈ t.activated ↔ p = (readUnary u s).u.toNat ∨ p ∈ s.activated := fun p => by
      rw [hproof.activated, mem_insertPort]
    refine ⟨t, hexec.trans ht, hqueue, (hact _).mpr (.inl rfl), hact, hproof.devices, hproof.queueing, hproof.halted,
      hproof.clock, ?_⟩
    rintro rfl
    cases ht
    exact ⟨rfl, rfl, rfl, rfl, rfl, rfl⟩

/-- Settles O35: HWI by the two forms of an answer, and each action by its own effect. -/
theorem deviceActionsTakeEffect : Obligations.DeviceActionsTakeEffect := by
  refine ⟨fun u s d => ?called, fun s => rfl, fun s rest r a v => ?actions⟩
  case called =>
    intro i hd
    exact ⟨fun acts rest hs => exec_hwi_of_script hd hs, fun hs => exec_hwi_of_no_script hd hs⟩
  case actions =>
    refine ⟨rfl, rfl, rfl, rfl, rfl, rfl, fun h => applyActions_cons (act := .raise v) (State.enqueue_of_lt h v) rest, fun h => ?_⟩
    have hfault : applyAction (.raise v) s = .fault (.onFire { s with halted := some .onFire }) := State.enqueue_of_ge h v
    simp only [applyActions, hfault]

/-- Settles O37: the reading and the flag are the draw's. -/
theorem clkDeliversAReading : Obligations.ClkDeliversAReading :=
  ⟨decode_nullary (op := 0x01) rfl [], fun s =>
    ⟨(clockDraw s.draws s.clock).1, (clockDraw s.draws s.clock).2, le_clockDraw_of_no_overflow, exec_clk s⟩⟩

/-- Settles O38: the three words at PC hold the NEXT words of a reserved word too. -/
theorem illegalWordsStop : Obligations.IllegalWordsStop := by
  refine ⟨decode_nullary (op := 0x3F) rfl [], fun s => ?err, fun s h => ?reserved⟩
  case err => rw [exec_err, State.raiseIllegal_eq]
  case reserved =>
    obtain ⟨e, he⟩ := (decode_error_iff_reservedWord _ (s.readMem (s.pc + 1)) (s.readMem (s.pc + 2)) []).mpr h
    rw [runInstruction_of_error he, State.raiseIllegal_eq]

end Sys2Proof.Machine
end

section
/-! PROOFS. The parts of a step: the devices' turn, the dispatch and its entry, the return (60_exceptions.md R206 to R208, R214). -/

namespace Sys2Proof.Machine

theorem sub_one_sub_one (w : Word) : w - 1 - 1 = w - 2#16 := by
  rw [BitVec.sub_sub]
  rfl

/-- The entry, with SP two words down (R207). -/
theorem State.enterInterrupt_eq (s : State) (msg : Word) :
    s.enterInterrupt msg =
      { s with
        queueing := true
        pc := s.ia
        sp := s.sp - 2#16
        regs := s.regs.set .a msg
        mem := (s.mem.write (s.sp - 1#16).toNat s.pc).write (s.sp - 2#16).toNat (s.reg .a) } := by
  rw [← sub_one_sub_one]
  rfl

/-- The upper stacked word is the interrupted PC: the push of A went one address lower. -/
theorem State.enterInterrupt_readMem_pc (s : State) (msg : Word) :
    (s.enterInterrupt msg).readMem (s.sp - 1#16) = s.pc := by
  have hne : (s.sp - 1#16).toNat ≠ (s.sp - 2#16).toNat := by bv_omega
  simp only [State.enterInterrupt_eq, State.readMem, Memory.read_write, if_neg hne, if_true]

theorem State.enterInterrupt_readMem_a (s : State) (msg : Word) :
    (s.enterInterrupt msg).readMem (s.sp - 2#16) = s.reg .a := by
  simp only [State.enterInterrupt_eq, State.readMem, Memory.read_write, if_true]

theorem State.dispatch_of_held {s : State} (h : s.queueing = true ∨ s.queue = []) : s.dispatch = s := by
  unfold State.dispatch
  rcases h with h | h
  · rw [if_pos h]
  · rw [h]
    exact ite_self s

theorem State.dispatch_of_discard {s : State} {msg : Word} {rest : List Word} (hoff : s.queueing = false)
    (hq : s.queue = msg :: rest) (hia : s.ia = 0#16) : s.dispatch = { s with queue := rest } := by
  simp only [State.dispatch, hoff, hq, hia, Bool.false_eq_true, if_false, if_true]

theorem State.dispatch_of_handler {s : State} {msg : Word} {rest : List Word} (hoff : s.queueing = false)
    (hq : s.queue = msg :: rest) (hia : s.ia ≠ 0#16) : s.dispatch = { s with queue := rest }.enterInterrupt msg := by
  simp only [State.dispatch, hoff, hq, hia, Bool.false_eq_true, if_false]

theorem deviceTurn_of_schedule {s : State} {moves : List (Nat × DeviceAction)} {rest : List (List (Nat × DeviceAction))}
    (ha : s.activated ≠ []) (hs : s.schedule = moves :: rest) :
    deviceTurn s = applyActions (permitted s.activated moves) { s with schedule := rest } := by
  rcases deviceTurn_cases s with ⟨h, _⟩ | ⟨_, _, h, hd⟩ | ⟨_, h, _⟩
  · exact absurd h ha
  · cases hs.symm.trans h
    exact hd
  · cases hs.symm.trans h

theorem deviceTurn_of_no_schedule {s : State} (ha : s.activated ≠ []) (hs : s.schedule = []) :
    ∃ moves, deviceTurn s = applyActions (permitted s.activated moves) { s with draws := s.draws + 1 } := by
  rcases deviceTurn_cases s with ⟨h, _⟩ | ⟨_, _, h, _⟩ | ⟨moves, _, hd⟩
  · exact absurd h ha
  · cases hs.symm.trans h
  · exact ⟨moves, hd⟩

/-- No move of a port that is not activated is permitted (R214). -/
theorem permitted_eq_nil {activated : List Nat} {moves : List (Nat × DeviceAction)}
    (h : ∀ mv ∈ moves, mv.1 ∉ activated) : permitted activated moves = [] := by
  rw [permitted, List.map_eq_nil_iff, List.filter_eq_nil_iff]
  exact fun mv hmv => by simpa using h mv hmv

end Sys2Proof.Machine
end

section
/-! PROOFS. The settled statements about the parts of a step (60_exceptions.md, 70_reset_and_hazards.md R244). -/

namespace Sys2Proof.Machine

/-- Settles O39. -/
theorem stepRunsTheDecodedInstruction : Obligations.StepRunsTheDecodedInstruction :=
  ⟨fun _ _ _ _ hh ht hdec => (step_turn hh ht).trans (runInstruction_of_decode hdec), fun _ => deviceTurn_idle,
    fun _ => State.dispatch_of_held⟩

/-- Settles O41: the entry starts from the state without the queue's head. -/
theorem dispatchEntersTheHandler : Obligations.DispatchEntersTheHandler := by
  intro s t msg rest hh ht hoff hq hia
  rw [step_turn hh ht, State.dispatch_of_handler hoff hq hia, State.enterInterrupt_eq]
  rfl

/-- Settles O42. -/
theorem dispatchDiscardsOrHolds : Obligations.DispatchDiscardsOrHolds := by
  intro s t hh ht
  rw [step_turn hh ht]
  refine ⟨fun msg rest hoff hq hia => ?_, fun hon => ?_, fun hq => ?_⟩
  · rw [State.dispatch_of_discard hoff hq hia]
  · rw [State.dispatch_of_held (.inl hon)]
  · rw [State.dispatch_of_held (.inr hq)]

/-- Settles O43: RFI pops the two words that entry stacked, which the handler has left. -/
theorem interruptRoundTrip : Obligations.InterruptRoundTrip := by
  intro s h msg hsp hpc ha
  have hsp' : h.sp = s.sp - 2#16 := hsp.trans (sub_one_sub_one s.sp)
  have hpop : h.sp + 1#16 = s.sp - 1#16 := by rw [hsp']; bv_omega
  refine ⟨_, exec_rfi_eq (.lit 0#16) h, ?pc, ?a, ?sp, rfl, fun r hr => ?regs, fun _ => rfl⟩
  case pc =>
    calc h.readMem (h.sp + 1#16)
      _ = (s.enterInterrupt msg).readMem (s.sp - 1#16) := by rw [hpop, hpc]
      _ = s.pc := s.enterInterrupt_readMem_pc msg
  case a =>
    calc (h.setReg .a (h.readMem h.sp)).reg .a
      _ = h.readMem h.sp := by rw [State.reg_setReg, if_pos rfl]
      _ = (s.enterInterrupt msg).readMem (s.sp - 2#16) := by rw [hsp', ha]
      _ = s.reg .a := s.enterInterrupt_readMem_a msg
  case sp =>
    calc h.sp + 2#16
      _ = s.sp - 2#16 + 2#16 := by rw [hsp']
      _ = s.sp := BitVec.sub_add_cancel _ _
  case regs => exact (h.reg_setReg .a r _).trans (if_neg hr)

/-- Settles O59: the statement's list of moves is `permitted`. -/
theorem inactiveDevicesDoNothing : Obligations.InactiveDevicesDoNothing := by
  refine fun s ha => ⟨fun moves rest hs => ⟨deviceTurn_of_schedule ha hs, fun hmv => ?_⟩, deviceTurn_of_no_schedule ha⟩
  rw [deviceTurn_of_schedule ha hs, permitted_eq_nil hmv]
  rfl

end Sys2Proof.Machine
end

section
/-! PROOFS. What a write of one location leaves alone, and which instructions are one (10_state.md R15, R16, 41_binary_alu.md R121). -/

namespace Sys2Proof.Machine

/-- `t` is `s` with PC and SP moved on to `pc` and `sp` and location `l` written: the shape of the frames. -/
structure State.WritesOnly (l : Loc) (pc sp : Word) (s t : State) : Prop where
  reg : ∀ r, l ≠ .reg r → t.reg r = s.reg r
  sp : l ≠ .sp → t.sp = sp
  pc : l ≠ .pc → t.pc = pc
  ps : l ≠ .ps → t.ps = s.ps
  ramBut : ∀ a, l = .mem a → s.SameRamBut t a
  ram : (∀ a, l ≠ .mem a) → s.SameRam t
  interrupts : s.SameInterrupts t
  devices : s.SameDevices t
  halted : t.halted = s.halted
  clock : t.clock = s.clock

theorem writeLoc_writesOnly (l : Loc) (v pc sp : Word) (s : State) :
    State.WritesOnly l pc sp s (writeLoc l v { s with pc := pc, sp := sp }) where
  reg r hr := by rw [writeLoc_reg, if_neg hr]; rfl
  sp hsp := by rw [writeLoc_sp, if_neg hsp]
  pc hpc := by rw [writeLoc_pc, if_neg hpc]
  ps hps := by rw [writeLoc_ps, if_neg hps]
  ramBut a ha b hb := by
    have hne : l ≠ .mem b := fun h => hb (Loc.mem.inj (h.symm.trans ha))
    rw [writeLoc_readMem, if_neg hne]
    rfl
  ram hl b := by rw [writeLoc_readMem, if_neg (hl b)]; rfl
  interrupts := ⟨writeLoc_ia _ _ _, writeLoc_queue _ _ _, writeLoc_queueing _ _ _⟩
  devices := ⟨writeLoc_devices _ _ _, writeLoc_activated _ _ _, writeLoc_schedule _ _ _, writeLoc_draws _ _ _⟩
  halted := writeLoc_halted _ _ _
  clock := writeLoc_clock _ _ _

section
variable {m : MOperand} {u : UOperand} (s : State)

theorem storeWord_writesOnly (f : Word → Word → Word) (m : MOperand) (u : UOperand) :
    State.WritesOnly (readBinary m u s).loc (nextAddress m u s.pc) (spAfter m u s.sp) s (storeWord f m u s) := by
  rw [storeWord_eq, readBinary_st_eq]
  exact writeLoc_writesOnly _ _ _ _ _

variable {i : Instr}

theorem exec_eq_storeWord (hi : i ∈ [Instr.set m u, .mod m u, .mdi m u, .and m u, .bor m u, .xor m u]) :
    ∃ f, exec i s = .next (storeWord f m u s) := by
  simp only [List.mem_cons, List.not_mem_nil, or_false] at hi
  rcases hi with rfl | rfl | rfl | rfl | rfl | rfl <;> exact ⟨_, rfl⟩

theorem exec_eq_storeWordAndPs
    (hi : i ∈ [Instr.add m u, .sub m u, .mul m u, .mli m u, .div m u, .dvi m u, .lls m u, .lrs m u, .ars m u, .adx m u,
      .sbx m u]) : ∃ f, exec i s = .next (storeWordAndPs f m u s) := by
  simp only [List.mem_cons, List.not_mem_nil, or_false] at hi
  rcases hi with rfl | rfl | rfl | rfl | rfl | rfl | rfl | rfl | rfl | rfl | rfl <;> exact ⟨_, rfl⟩

theorem exec_eq_stepIJ (hi : i ∈ [Instr.sti m u, .std m u]) :
    ∃ d, exec i s = .next (stepIJ d (storeWord (fun _ u => u) m u s)) := by
  simp only [List.mem_cons, List.not_mem_nil, or_false] at hi
  rcases hi with rfl | rfl <;> exact ⟨_, rfl⟩

theorem exec_eq_conditional
    (hi : i ∈ [Instr.ifb m u, .ifc m u, .ife m u, .ifn m u, .ifg m u, .ifa m u, .ifl m u, .ifu m u]) :
    ∃ test, exec i s = conditional test m u s := by
  simp only [List.mem_cons, List.not_mem_nil, or_false] at hi
  rcases hi with rfl | rfl | rfl | rfl | rfl | rfl | rfl | rfl
  exacts [⟨_, exec_ifb m u s⟩, ⟨_, exec_ifc m u s⟩, ⟨_, exec_ife m u s⟩, ⟨_, exec_ifn m u s⟩, ⟨_, exec_ifg m u s⟩,
    ⟨_, exec_ifa m u s⟩, ⟨_, exec_ifl m u s⟩, ⟨_, exec_ifu m u s⟩]

/-- IAG and HWN write a word to u's location (R162, R166). -/
theorem exec_eq_writeLoc (hi : i ∈ [Instr.iag u, .hwn u]) :
    ∃ v, exec i s = .next (writeLoc (readUnary u s).loc v (readUnary u s).st) := by
  simp only [List.mem_cons, List.not_mem_nil, or_false] at hi
  rcases hi with rfl | rfl <;> exact ⟨_, rfl⟩

end

/-- After a write of one RAM word every other reads as before (R30). -/
theorem State.sameRamBut_write (s : State) {t : State} {a v : Word} (h : t.mem = s.mem.write a.toNat v) :
    s.SameRamBut t a := by
  intro b hb
  rw [State.readMem, h, Memory.read_write, if_neg (fun he => hb (BitVec.eq_of_toNat_eq he))]
  rfl

/-- What HWQ changes: X, Y and Z. -/
theorem exec_hwq_next {u : UOperand} {s t : State} (h : exec (.hwq u) s = .next t) :
    ∃ d : Device, t = ((((readUnary u s).st.setReg .x d.manufacturer).setReg .y d.hardwareId).setReg .z d.version) := by
  cases hd : s.devices[(readUnary u s).u.toNat]? with
  | some d => exact ⟨d, Host.Outcome.next.inj (h.symm.trans (exec_hwq_of_device hd))⟩
  | none =>
    rw [exec_hwq_of_absent (List.getElem?_eq_none_iff.mp hd), State.raise_absentPort] at h
    cases h

end Sys2Proof.Machine
end

section
/-! PROOFS. The settled frames of the binary instructions (10_state.md section 4). -/

namespace Sys2Proof.Machine

/-- Settles O45: each is a write of m's location. -/
theorem frameOfStores : Obligations.FrameOfStores := by
  intro i m u s t hi h
  obtain ⟨f, hf⟩ := exec_eq_storeWord s hi
  cases hf.symm.trans h
  obtain ⟨hreg, hsp, hpc, hps, hramBut, hram, hint, hdev, hhalt, hclock⟩ := storeWord_writesOnly s f m u
  exact ⟨hreg, hsp, hpc, hps, hramBut, hram, hint, hdev, hhalt, hclock⟩

/-- Settles O46: each is a write of m's location and then of PS. -/
theorem frameOfStoresWithPs : Obligations.FrameOfStoresWithPs := by
  intro i m u s t hi h
  obtain ⟨f, hf⟩ := exec_eq_storeWordAndPs s hi
  cases hf.symm.trans h
  rw [storeWordAndPs_eq, readBinary_st_eq]
  obtain ⟨hreg, hsp, hpc, -, hramBut, hram, hint, hdev, hhalt, hclock⟩ :=
    writeLoc_writesOnly (readBinary m u s).loc (f (readBinary m u s).m (readBinary m u s).u s.ps).word
      (nextAddress m u s.pc) (spAfter m u s.sp) s
  exact ⟨hreg, hsp, hpc, hramBut, hram, hint, hdev, hhalt, hclock⟩

/-- Settles O47: each is SET and then the step of I and J. -/
theorem frameOfStiStd : Obligations.FrameOfStiStd := by
  intro i m u s t hi h
  obtain ⟨d, hd⟩ := exec_eq_stepIJ s hi
  cases hd.symm.trans h
  obtain ⟨hreg, hsp, hpc, hps, hramBut, hram, hint, hdev, hhalt, hclock⟩ := storeWord_writesOnly s (fun _ u => u) m u
  refine ⟨fun r hri hrj hr => ?_, hsp, hpc, hps, hramBut, hram, hint, hdev, hhalt, hclock⟩
  rw [stepIJ_reg, if_neg (not_or.mpr ⟨hri, hrj⟩)]
  exact hreg r hr

/-- Settles O48: a conditional ends with its operands read, but for PC. -/
theorem frameOfConditionals : Obligations.FrameOfConditionals := by
  intro i m u s t hi h
  obtain ⟨test, ht⟩ := exec_eq_conditional s hi
  obtain ⟨pc, rfl⟩ := conditional_next (ht.symm.trans h)
  rw [readBinary_st_eq]
  exact ⟨fun _ => rfl, rfl, rfl, fun _ => rfl, ⟨rfl, rfl, rfl⟩, ⟨rfl, rfl, rfl, rfl⟩, rfl, rfl⟩

end Sys2Proof.Machine
end

section
/-! PROOFS. The settled frames of the unary and nullary instructions (10_state.md section 4). -/

namespace Sys2Proof.Machine

/-- Settles O49, from the whole next states of JSR and RFI. -/
theorem frameOfJsrAndRfi : Obligations.FrameOfJsrAndRfi := by
  refine fun u s t => ⟨fun h => ?jsr, fun h => ?rfi⟩
  case jsr =>
    cases (jsrPushesAndJumps.2 u s).symm.trans h
    exact ⟨fun _ => rfl, rfl, s.sameRamBut_write rfl, ⟨rfl, rfl, rfl⟩, ⟨rfl, rfl, rfl, rfl⟩, rfl, rfl⟩
  case rfi =>
    cases (exec_rfi_eq u s).symm.trans h
    exact ⟨fun r hr => (s.reg_setReg .a r _).trans (if_neg hr), rfl, fun _ => rfl, rfl, rfl, ⟨rfl, rfl, rfl, rfl⟩, rfl, rfl⟩

/-- Settles O50, by the instruction. -/
theorem frameOfIntIasIaq : Obligations.FrameOfIntIasIaq := by
  intro i u s t hi h
  simp only [List.mem_cons, List.not_mem_nil, or_false] at hi
  rcases hi with rfl | rfl | rfl
  · rcases (readUnary u s).st.enqueue_cases (readUnary u s).u with ⟨_, he⟩ | ⟨_, he⟩ <;> cases he.symm.trans h
    rw [readUnary_st_eq]
    exact ⟨fun _ => rfl, rfl, rfl, rfl, fun _ => rfl, fun hne => absurd rfl hne, fun _ => rfl, fun _ => rfl,
      ⟨rfl, rfl, rfl, rfl⟩, rfl, rfl⟩
  · cases (exec_ias u s).symm.trans h
    rw [readUnary_st_eq]
    exact ⟨fun _ => rfl, rfl, rfl, rfl, fun _ => rfl, fun _ => rfl, fun hne => absurd rfl hne, fun _ => rfl,
      ⟨rfl, rfl, rfl, rfl⟩, rfl, rfl⟩
  · cases (exec_iaq u s).symm.trans h
    rw [readUnary_st_eq]
    exact ⟨fun _ => rfl, rfl, rfl, rfl, fun _ => rfl, fun _ => rfl, fun _ => rfl, fun hne => absurd rfl hne,
      ⟨rfl, rfl, rfl, rfl⟩, rfl, rfl⟩

/-- Settles O51: IAG and HWN are a write of u's location, HWQ three register writes. -/
theorem frameOfIagHwnHwq : Obligations.FrameOfIagHwnHwq := by
  refine fun u s t => ⟨fun i hi h => ?write, fun h => ?hwq⟩
  case write =>
    obtain ⟨v, hv⟩ := exec_eq_writeLoc s hi
    cases hv.symm.trans h
    rw [readUnary_st_eq]
    obtain ⟨hreg, hsp, hpc, hps, hramBut, hram, hint, hdev, hhalt, hclock⟩ :=
      writeLoc_writesOnly (readUnary u s).loc v (nextAddressU u s.pc) (spAfterU u s.sp) s
    exact ⟨hreg, hsp, hpc, hps, hramBut, hram, hint, hdev, hhalt, hclock⟩
  case hwq =>
    obtain ⟨d, rfl⟩ := exec_hwq_next h
    rw [readUnary_st_eq]
    refine ⟨fun r hx hy hz => ?_, rfl, rfl, rfl, fun _ => rfl, ⟨rfl, rfl, rfl⟩, ⟨rfl, rfl, rfl, rfl⟩, rfl, rfl⟩
    rw [State.reg_setReg, if_neg hz, State.reg_setReg, if_neg hy, State.reg_setReg, if_neg hx]
    rfl

/-- Settles O52. -/
theorem frameOfNopAndClk : Obligations.FrameOfNopAndClk := by
  refine fun s t => ⟨fun h => ?nop, fun h => ?clk⟩
  case nop =>
    cases (exec_nop s).symm.trans h
    exact ⟨fun _ => rfl, rfl, rfl, fun _ => rfl, ⟨rfl, rfl, rfl⟩, ⟨rfl, rfl, rfl, rfl⟩, rfl, rfl⟩
  case clk =>
    cases (exec_clk s).symm.trans h
    refine ⟨fun r hi hj => ?_, rfl, fun _ => rfl, ⟨rfl, rfl, rfl⟩, rfl, rfl, rfl, rfl⟩
    exact ((s.advance.setReg .i _).reg_setReg .j r _).trans
      ((if_neg hj).trans ((s.advance.reg_setReg .i r _).trans (if_neg hi)))

end Sys2Proof.Machine
end

section
/-! PROOFS. Everything one instruction can do to the interrupt state, the devices and the fault mark, and how it can stop
(60_exceptions.md). -/

namespace Sys2Proof.Machine

/-- What an ordinary instruction leaves alone: the interrupt state, the fault mark, the devices and RAM's canonical form. -/
structure State.OrdinaryChange (s t : State) : Prop where
  ia : t.ia = s.ia
  queue : t.queue = s.queue
  queueing : t.queueing = s.queueing
  halted : t.halted = s.halted
  devices : t.devices = s.devices
  activated : t.activated = s.activated
  wf : s.mem.wf = true → t.mem.wf = true

namespace State.OrdinaryChange

variable {s t : State}

/-- Registers, clock and draw counter are free to an ordinary instruction. -/
theorem registers (h : s.OrdinaryChange t) (regs : Regs) (pc sp ps : Word) (clock : BitVec 32) (draws : Nat) :
    s.OrdinaryChange { t with regs := regs, pc := pc, sp := sp, ps := ps, clock := clock, draws := draws } :=
  ⟨h.ia, h.queue, h.queueing, h.halted, h.devices, h.activated, h.wf⟩

theorem refl (s : State) : s.OrdinaryChange s := ⟨rfl, rfl, rfl, rfl, rfl, rfl, id⟩

theorem readBinary_st (m : MOperand) (u : UOperand) (s : State) : s.OrdinaryChange (readBinary m u s).st := by
  rw [readBinary_st_eq]
  exact (refl s).registers _ _ _ _ _ _

theorem readUnary_st (u : UOperand) (s : State) : s.OrdinaryChange (readUnary u s).st := by
  rw [readUnary_st_eq]
  exact (refl s).registers _ _ _ _ _ _

theorem writeLoc (h : s.OrdinaryChange t) (l : Loc) (v : Word) : s.OrdinaryChange (writeLoc l v t) :=
  ⟨(writeLoc_ia l v t).trans h.ia, (writeLoc_queue l v t).trans h.queue, (writeLoc_queueing l v t).trans h.queueing,
    (writeLoc_halted l v t).trans h.halted, (writeLoc_devices l v t).trans h.devices,
    (writeLoc_activated l v t).trans h.activated, fun hw => writeLoc_wf l v (h.wf hw)⟩

theorem setReg (h : s.OrdinaryChange t) (r : Reg) (v : Word) : s.OrdinaryChange (t.setReg r v) :=
  h.registers _ _ _ _ _ _

theorem stepIJ (h : s.OrdinaryChange t) (d : Word) : s.OrdinaryChange (stepIJ d t) := (h.setReg _ _).setReg _ _

theorem push (h : s.OrdinaryChange t) (v : Word) : s.OrdinaryChange (t.push v) :=
  ⟨h.ia, h.queue, h.queueing, h.halted, h.devices, h.activated, fun hw => State.push_wf v (h.wf hw)⟩

theorem storeWord (f : Word → Word → Word) (m : MOperand) (u : UOperand) (s : State) :
    s.OrdinaryChange (storeWord f m u s) := (readBinary_st m u s).writeLoc _ _

theorem storeWordAndPs (f : Word → Word → Word → WordAndPs) (m : MOperand) (u : UOperand) (s : State) :
    s.OrdinaryChange (storeWordAndPs f m u s) := ((readBinary_st m u s).writeLoc _ _).registers _ _ _ _ _ _

end State.OrdinaryChange

/-- Everything an instruction can do, by what it may change and how it may stop. -/
inductive ExecOutcome (s : State) : Instr → Prop
  /-- It ends and leaves the interrupt state, the devices and the fault mark alone. -/
  | ordinary {i : Instr} {t : State} (h : exec i s = .next t) (ht : s.OrdinaryChange t) : ExecOutcome s i
  /-- A conditional whose skip never ends (log entry 12). -/
  | endless {i : Instr} {m : MOperand} {u : UOperand}
      (hi : i ∈ [Instr.ifb m u, .ifc m u, .ife m u, .ifn m u, .ifg m u, .ifa m u, .ifl m u, .ifu m u])
      (hend : skipFrom skipFuel (readBinary m u s).st.mem (readBinary m u s).st.pc = none)
      (h : exec i s = .fault (.endlessSkip (readBinary m u s).st)) : ExecOutcome s i
  /-- INT (R161). -/
  | int (u : UOperand) : ExecOutcome s (.int u)
  /-- IAS (R163). -/
  | ias (u : UOperand) : ExecOutcome s (.ias u)
  /-- RFI (R164). -/
  | rfi (u : UOperand) : ExecOutcome s (.rfi u)
  /-- IAQ (R165). -/
  | iaq (u : UOperand) : ExecOutcome s (.iaq u)
  /-- HWQ or HWI of an absent port (R216). -/
  | absent {i : Instr} {u : UOperand} (hi : i = .hwq u ∨ i = .hwi u) (hport : s.devices.length ≤ (readUnary u s).u.toNat)
      (h : exec i s = (readUnary u s).st.raise (.absentPort (readUnary u s).u)) : ExecOutcome s i
  /-- HWI of a connected device: its actions, from the state with its port activated (R168). -/
  | device {u : UOperand} (acts : List DeviceAction) (ds : List Device) (n : Nat)
      (hport : (readUnary u s).u.toNat < s.devices.length) (hids : ds.map Device.ids = s.devices.map Device.ids)
      (h : exec (.hwi u) s = applyActions acts { s.called u with devices := ds, draws := n }) : ExecOutcome s (.hwi u)
  /-- ERR (R192). -/
  | err : ExecOutcome s .err

theorem execOutcome_conditional (s : State) {i : Instr} {m : MOperand} {u : UOperand}
    (hi : i ∈ [Instr.ifb m u, .ifc m u, .ife m u, .ifn m u, .ifg m u, .ifa m u, .ifl m u, .ifu m u]) :
    ExecOutcome s i := by
  obtain ⟨test, ht⟩ := exec_eq_conditional s hi
  have hread := State.OrdinaryChange.readBinary_st m u s
  rcases conditional_cases test m u s with ⟨_, he⟩ | ⟨_, he⟩
  · exact .ordinary (ht.trans he) hread
  · rcases (readBinary m u s).st.skip_cases with ⟨pc, _, hs⟩ | ⟨hend, hs⟩
    · exact .ordinary (ht.trans (he.trans hs)) (hread.registers _ _ _ _ _ _)
    · exact .endless hi hend (ht.trans (he.trans hs))

theorem execOutcome_hwq (s : State) (u : UOperand) : ExecOutcome s (.hwq u) := by
  cases hd : s.devices[(readUnary u s).u.toNat]? with
  | some d =>
    exact .ordinary (exec_hwq_of_device hd) ((((State.OrdinaryChange.readUnary_st u s).setReg _ _).setReg _ _).setReg _ _)
  | none =>
    have hport := List.getElem?_eq_none_iff.mp hd
    exact .absent (.inl rfl) hport (exec_hwq_of_absent hport)

/-- Everything HWI can do: the fault of an absent port, or the actions of a device (R168, R216). -/
theorem exec_hwi_cases (s : State) (u : UOperand) :
    (s.devices.length ≤ (readUnary u s).u.toNat ∧
        exec (.hwi u) s = (readUnary u s).st.raise (.absentPort (readUnary u s).u)) ∨
      ∃ acts ds n, (readUnary u s).u.toNat < s.devices.length ∧ ds.map Device.ids = s.devices.map Device.ids ∧
        exec (.hwi u) s = applyActions acts { s.called u with devices := ds, draws := n } := by
  cases hd : s.devices[(readUnary u s).u.toNat]? with
  | some d =>
    have hd' : (s.called u).devices[(readUnary u s).u.toNat]? = some d := by rwa [State.called, readUnary_st_devices]
    obtain ⟨ds, n, hst, hids⟩ := hwiAnswer_state d _ (s.called u) hd'
    have hexec := exec_hwi_of_device hd
    rw [hst] at hexec
    rw [State.called, readUnary_st_devices] at hids
    exact .inr ⟨_, ds, n, (List.getElem?_eq_some_iff.mp hd).1, hids, hexec⟩
  | none =>
    have hport := List.getElem?_eq_none_iff.mp hd
    exact .inl ⟨hport, exec_hwi_of_absent hport⟩

theorem execOutcome_hwi (s : State) (u : UOperand) : ExecOutcome s (.hwi u) := by
  rcases exec_hwi_cases s u with ⟨hport, h⟩ | ⟨acts, ds, n, hport, hids, h⟩
  · exact .absent (.inr rfl) hport h
  · exact .device acts ds n hport hids h

theorem execOutcome (s : State) (i : Instr) : ExecOutcome s i := by
  have hunary := fun u => State.OrdinaryChange.readUnary_st u s
  cases i with
  | set m u | mod m u | mdi m u | and m u | bor m u | xor m u => exact .ordinary rfl (.storeWord _ m u s)
  | add m u | sub m u | mul m u | mli m u | div m u | dvi m u | lls m u | lrs m u | ars m u | adx m u | sbx m u =>
    exact .ordinary rfl (.storeWordAndPs _ m u s)
  | sti m u | std m u => exact .ordinary rfl ((State.OrdinaryChange.storeWord _ m u s).stepIJ _)
  | ifb m u | ifc m u | ife m u | ifn m u | ifg m u | ifa m u | ifl m u | ifu m u =>
    exact execOutcome_conditional s (m := m) (u := u) (by simp)
  | jsr u => exact .ordinary rfl (((hunary u).push _).registers _ _ _ _ _ _)
  | iag u | hwn u => exact .ordinary rfl ((hunary u).writeLoc _ _)
  | int u => exact .int u
  | ias u => exact .ias u
  | rfi u => exact .rfi u
  | iaq u => exact .iaq u
  | hwq u => exact execOutcome_hwq s u
  | hwi u => exact execOutcome_hwi s u
  | nop | clk => exact .ordinary rfl ((State.OrdinaryChange.refl s).registers _ _ _ _ _ _)
  | err => exact .err

end Sys2Proof.Machine
end

section
/-! PROOFS. What every instruction and every turn of the devices keeps (10_state.md section 8, 60_exceptions.md section 9). -/

namespace Sys2Proof.Machine

/-- What the devices' turn and every instruction keep: the fault mark, the identifications and the marks of the devices, the messages
that wait, and each part of the invariant. -/
structure State.Evolves (s t : State) : Prop where
  halted : t.halted = s.halted
  ids : t.devices.map Device.ids = s.devices.map Device.ids
  activated : ∀ p ∈ s.activated, p ∈ t.activated
  ports : ∀ p ∈ t.activated, p ∈ s.activated ∨ p < s.devices.length
  rising : s.activated.Pairwise (· < ·) → t.activated.Pairwise (· < ·)
  queue : s.queue <+: t.queue
  capacity : s.queue.length ≤ 256 → t.queue.length ≤ 256
  wf : s.mem.wf = true → t.mem.wf = true

namespace State.Evolves

variable {s t r : State}

theorem length_devices (h : s.Evolves t) : t.devices.length = s.devices.length := by
  simpa only [List.length_map] using congrArg List.length h.ids

theorem trans (h : s.Evolves t) (k : t.Evolves r) : s.Evolves r where
  halted := k.halted.trans h.halted
  ids := k.ids.trans h.ids
  activated p hp := k.activated p (h.activated p hp)
  ports p hp := (k.ports p hp).elim (h.ports p) fun hlt => .inr (h.length_devices ▸ hlt)
  rising hs := k.rising (h.rising hs)
  queue := h.queue.trans k.queue
  capacity hs := k.capacity (h.capacity hs)
  wf hs := k.wf (h.wf hs)

theorem of_ordinaryChange (h : s.OrdinaryChange t) : s.Evolves t where
  halted := h.halted
  ids := by rw [h.devices]
  activated p hp := by rwa [h.activated]
  ports p hp := .inl (by rwa [h.activated] at hp)
  rising hs := by rwa [h.activated]
  queue := by rw [h.queue]
  capacity hs := by rwa [h.queue]
  wf := h.wf

/-- IA and the queueing flag are no part of it. -/
theorem interruptRegisters (h : s.Evolves t) (ia : Word) (queueing : Bool) :
    s.Evolves { t with ia := ia, queueing := queueing } :=
  ⟨h.halted, h.ids, h.activated, h.ports, h.rising, h.queue, h.capacity, h.wf⟩

theorem of_enqueue {msg : Word} (h : s.enqueue msg = .next t) : s.Evolves t := by
  rcases s.enqueue_cases msg with ⟨hlt, he⟩ | ⟨_, he⟩ <;> cases he.symm.trans h
  refine ⟨rfl, rfl, fun _ => id, fun _ => .inl, id, ⟨[msg], rfl⟩, fun _ => ?_, id⟩
  rw [List.length_append, List.length_singleton]
  omega

theorem of_applyActions {acts : List DeviceAction} (h : applyActions acts s = .next t) : s.Evolves t := by
  obtain ⟨hproof, hqueue, hwf, hcap⟩ := applyActions_next h
  exact ⟨hproof.halted, by rw [hproof.devices], fun p hp => by rwa [hproof.activated],
    fun p hp => .inl (by rwa [hproof.activated] at hp), fun hs => by rwa [hproof.activated], ⟨_, hqueue.symm⟩, hcap, hwf⟩

/-- An HWI marks the port of a connected device and uses up its answer. -/
theorem called {u : UOperand} {ds : List Device} (n : Nat) (hport : (readUnary u s).u.toNat < s.devices.length)
    (hids : ds.map Device.ids = s.devices.map Device.ids) :
    s.Evolves { s.called u with devices := ds, draws := n } := by
  rw [State.called, readUnary_st_eq]
  refine ⟨rfl, hids, fun p hp => (mem_insertPort _ _ _).mpr (.inr hp), fun p hp => ?_, insertPort_pairwise _,
    ⟨[], List.append_nil _⟩, id, id⟩
  rcases (mem_insertPort _ _ _).mp hp with rfl | hp
  · exact .inr hport
  · exact .inl hp

end State.Evolves

theorem exec_evolves {i : Instr} {s t : State} (h : exec i s = .next t) : s.Evolves t := by
  have hread : ∀ u, s.Evolves (readUnary u s).st := fun u => .of_ordinaryChange (.readUnary_st u s)
  cases execOutcome s i with
  | ordinary he ht =>
    cases he.symm.trans h
    exact .of_ordinaryChange ht
  | endless _ _ he => cases he.symm.trans h
  | int u => exact (hread u).trans (.of_enqueue h)
  | ias u =>
    cases (exec_ias u s).symm.trans h
    exact (hread u).interruptRegisters _ _
  | rfi u =>
    cases (exec_rfi u s).symm.trans h
    exact (State.Evolves.of_ordinaryChange ((State.OrdinaryChange.readUnary_st u s).registers _ _ _ _ _ _)).interruptRegisters _ _
  | iaq u =>
    cases (exec_iaq u s).symm.trans h
    exact (hread u).interruptRegisters _ _
  | absent _ _ he => cases he.symm.trans h
  | device acts ds n hport hids he => exact (State.Evolves.called n hport hids).trans (.of_applyActions (he.symm.trans h))
  | err => cases h

/-- The devices' turn is some actions, done once the schedule or the draw counter has moved on. -/
theorem deviceTurn_eq_applyActions (s : State) :
    ∃ acts schedule draws, deviceTurn s = applyActions acts { s with schedule := schedule, draws := draws } := by
  rcases deviceTurn_cases s with ⟨_, hd⟩ | ⟨moves, rest, _, hd⟩ | ⟨moves, _, hd⟩
  · exact ⟨[], s.schedule, s.draws, hd⟩
  · exact ⟨_, rest, s.draws, hd⟩
  · exact ⟨_, s.schedule, s.draws + 1, hd⟩

theorem deviceTurn_evolves {s t : State} (h : deviceTurn s = .next t) : s.Evolves t := by
  obtain ⟨acts, schedule, draws, hd⟩ := deviceTurn_eq_applyActions s
  have hmoved : s.Evolves { s with schedule := schedule, draws := draws } :=
    .of_ordinaryChange ⟨rfl, rfl, rfl, rfl, rfl, rfl, id⟩
  exact hmoved.trans (.of_applyActions (hd.symm.trans h))

theorem deviceTurn_queueing {s t : State} (h : deviceTurn s = .next t) : t.queueing = s.queueing := by
  obtain ⟨acts, schedule, draws, hd⟩ := deviceTurn_eq_applyActions s
  exact (applyActions_next (hd.symm.trans h)).1.queueing

/-- A step that ends in a next state: the devices' turn, the dispatch, one instruction. -/
theorem step_next {s t : State} (h : step s = .next t) :
    ∃ r i, s.halted = none ∧ deviceTurn s = .next r ∧ exec i r.dispatch = .next t := by
  rcases step_cases s with ⟨_, _, hs⟩ | ⟨hh, r, hr, hs⟩ | ⟨_, _, _, hs⟩ | ⟨_, _, _, hs⟩ <;> rw [hs] at h
  · cases h
  · rcases runInstruction_cases r.dispatch with ⟨i, _, _, he⟩ | ⟨_, _, he⟩ <;> rw [he] at h
    · exact ⟨r, i, hh, hr, h⟩
    · cases h
  · cases h
  · cases h

/-- The dispatch takes at most one message, from the head and with queueing off. -/
theorem State.dispatch_queue (s : State) : ∃ k ≤ 1, (k = 1 → s.queueing = false) ∧ s.dispatch.queue = s.queue.drop k := by
  rcases s.dispatch_cases with ⟨_, hd⟩ | ⟨msg, rest, hoff, hq, _, hd⟩ | ⟨msg, rest, hoff, hq, _, hd⟩ <;> rw [hd]
  · exact ⟨0, Nat.zero_le 1, by omega, rfl⟩
  · exact ⟨1, le_refl 1, fun _ => hoff, by rw [hq]; rfl⟩
  · exact ⟨1, le_refl 1, fun _ => hoff, by rw [hq]; rfl⟩

theorem State.Inv.evolves {s t : State} (hs : s.Inv) (h : s.Evolves t) : t.Inv := by
  obtain ⟨hwf, hcap, hhalt, hdev, hrising, hports⟩ := hs
  refine ⟨h.wf hwf, h.capacity hcap, h.halted.trans hhalt, h.length_devices ▸ hdev, h.rising hrising, fun p hp => ?_⟩
  rw [h.length_devices]
  exact (h.ports p hp).elim (hports p) id

theorem State.Inv.dispatch {s : State} (hs : s.Inv) : s.dispatch.Inv := by
  obtain ⟨hwf, hcap, hhalt, hdev, hrising, hports⟩ := hs
  obtain ⟨hhalted, -, hdevices, hactivated, -⟩ := s.dispatch_frame
  obtain ⟨hwf', hlen⟩ := State.dispatch_wf hwf
  rw [State.Inv, hhalted, hdevices, hactivated]
  exact ⟨hwf', hlen.trans hcap, hhalt, hdev, hrising, hports⟩

end Sys2Proof.Machine
end

section
/-! PROOFS. The settled statements about what every step and every instruction keeps. -/

namespace Sys2Proof.Machine

/-- Settles O3: the devices' turn, the dispatch and the instruction each keep the invariant. -/
theorem stepKeepsInvariant : Obligations.StepKeepsInvariant := by
  intro s t hs h
  obtain ⟨r, i, -, hturn, hexec⟩ := step_next h
  exact (hs.evolves (deviceTurn_evolves hturn)).dispatch.evolves (exec_evolves hexec)

/-- Settles O44: the turn and the instruction add at the tail, the dispatch takes from the head. -/
theorem queueIsFirstInFirstOut : Obligations.QueueIsFirstInFirstOut := by
  intro s t h
  obtain ⟨r, i, -, hturn, hexec⟩ := step_next h
  obtain ⟨raised, hraised⟩ := (deviceTurn_evolves hturn).queue
  obtain ⟨added, hadded⟩ := (exec_evolves hexec).queue
  obtain ⟨k, hk, hoff, hdrop⟩ := r.dispatch_queue
  refine ⟨k, raised.drop (k - s.queue.length) ++ added, hk, fun hk1 => deviceTurn_queueing hturn ▸ hoff hk1, ?_⟩
  rw [← hadded, hdrop, ← hraised, List.drop_append, List.append_assoc]

/-- Settles O58. -/
theorem deviceSetIsFixed : Obligations.DeviceSetIsFixed := by
  intro s t h
  obtain ⟨r, i, -, hturn, hexec⟩ := step_next h
  have hr := deviceTurn_evolves hturn
  have ht := exec_evolves hexec
  obtain ⟨-, -, hdevices, hactivated, -⟩ := r.dispatch_frame
  refine ⟨by rw [ht.ids, hdevices, hr.ids], fun p hp => ht.activated p ?_⟩
  rw [hactivated]
  exact hr.activated p hp

/-- Settles O53: what no device touches, and the marks of the state that its actions start from. -/
theorem frameOfHwi : Obligations.FrameOfHwi := by
  intro u s t h
  rcases exec_hwi_cases s u with ⟨_, he⟩ | ⟨acts, ds, n, _, hids, he⟩
  · cases he.symm.trans h
  · obtain ⟨hproof, -⟩ := applyActions_next (he.symm.trans h)
    refine ⟨hproof.queueing.trans (readUnary_st_queueing u s), hproof.halted.trans (readUnary_st_halted u s),
      hproof.clock.trans (readUnary_st_clock u s), hproof.schedule.trans (readUnary_st_schedule u s), ?ids,
      (exec_evolves h).queue, fun p => ?marks⟩
    case ids => rw [hproof.devices, hids]
    case marks =>
      rw [hproof.activated]
      exact mem_insertPort _ _ _

/-- Settles O57: by what each instruction can do; the messages that wait stay in every case. -/
theorem writersOfTheInterruptState : Obligations.WritersOfTheInterruptState := by
  intro i s t h
  refine and_assoc.mp (and_assoc.mp ⟨?writers, (exec_evolves h).queue⟩)
  cases execOutcome s i with
  | ordinary he ht =>
    cases he.symm.trans h
    exact ⟨⟨fun _ _ => ht.ia, fun _ _ => ht.queue⟩, fun _ _ => ht.queueing⟩
  | endless _ _ he => cases he.symm.trans h
  | int u =>
    rcases (readUnary u s).st.enqueue_cases (readUnary u s).u with ⟨_, he⟩ | ⟨_, he⟩ <;> cases he.symm.trans h
    exact ⟨⟨fun _ _ => readUnary_st_ia u s, fun hne _ => absurd rfl (hne u)⟩, fun _ _ => readUnary_st_queueing u s⟩
  | ias u =>
    cases (exec_ias u s).symm.trans h
    exact ⟨⟨fun hne _ => absurd rfl (hne u), fun _ _ => readUnary_st_queue u s⟩, fun _ _ => readUnary_st_queueing u s⟩
  | rfi u =>
    cases (exec_rfi u s).symm.trans h
    exact ⟨⟨fun _ _ => readUnary_st_ia u s, fun _ _ => readUnary_st_queue u s⟩, fun _ hne => absurd rfl (hne u)⟩
  | iaq u =>
    cases (exec_iaq u s).symm.trans h
    exact ⟨⟨fun _ _ => readUnary_st_ia u s, fun _ _ => readUnary_st_queue u s⟩, fun hne _ => absurd rfl (hne u)⟩
  | absent _ _ he => cases he.symm.trans h
  | device acts ds n _ _ he =>
    have hproof := (applyActions_next (he.symm.trans h)).1
    exact ⟨⟨fun _ hne => absurd rfl (hne _), fun _ hne => absurd rfl (hne _)⟩,
      fun _ _ => hproof.queueing.trans (readUnary_st_queueing _ s)⟩
  | err => cases h

end Sys2Proof.Machine
end

section
/-! PROOFS. How an instruction and a step can stop (60_exceptions.md section 1). -/

namespace Sys2Proof.Machine

/-- A fault that leaves the mark of its own kind set (R200): every fault but an endless skip. -/
def Fault.Marked (f : Fault) : Prop := ∃ h t, f = Halt.fault h t ∧ t.halted = some h

theorem State.raise_marked {s : State} {h : Halt} {f : Fault} (hf : s.raise h = .fault f) : f.Marked := by
  cases hf
  exact ⟨h, _, rfl, rfl⟩

theorem applyActions_fault_marked {acts : List DeviceAction} {s : State} {f : Fault} (h : applyActions acts s = .fault f) :
    f.Marked := by
  obtain ⟨t, rfl, hmark, -⟩ := applyActions_fault h
  exact ⟨.onFire, t, rfl, hmark⟩

theorem State.enqueue_fault {s : State} {msg : Word} {f : Fault} (h : s.enqueue msg = .fault f) :
    256 ≤ s.queue.length ∧ f = .onFire { s with halted := some .onFire } := by
  rcases s.enqueue_cases msg with ⟨_, he⟩ | ⟨hle, he⟩ <;> cases he.symm.trans h
  exact ⟨hle, rfl⟩

theorem exec_fault_marked {i : Instr} {s : State} {f : Fault} (h : exec i s = .fault f)
    (hskip : ∀ t, f ≠ .endlessSkip t) : f.Marked := by
  cases execOutcome s i with
  | ordinary he _ => cases he.symm.trans h
  | endless _ _ he =>
    cases he.symm.trans h
    exact absurd rfl (hskip _)
  | int u =>
    obtain ⟨_, rfl⟩ := State.enqueue_fault h
    exact ⟨.onFire, _, rfl, rfl⟩
  | ias u | rfi u | iaq u => cases h
  | absent _ _ he => exact State.raise_marked (he.symm.trans h)
  | device _ _ _ _ _ he => exact applyActions_fault_marked (he.symm.trans h)
  | err => exact State.raise_marked h

theorem deviceTurn_fault_marked {s : State} {f : Fault} (h : deviceTurn s = .fault f) : f.Marked := by
  obtain ⟨acts, schedule, draws, hd⟩ := deviceTurn_eq_applyActions s
  exact applyActions_fault_marked (hd.symm.trans h)

theorem step_fault_marked {s : State} {f : Fault} (h : step s = .fault f) (hskip : ∀ t, f ≠ .endlessSkip t) :
    f.Marked := by
  rcases step_cases s with ⟨m, hm, hs⟩ | ⟨_, r, _, hs⟩ | ⟨_, _, hturn, hs⟩ | ⟨_, _, _, hs⟩ <;> rw [hs] at h
  · cases h
    exact ⟨m, s, rfl, hm⟩
  · rcases runInstruction_cases r.dispatch with ⟨i, _, _, he⟩ | ⟨_, _, he⟩ <;> rw [he] at h
    · exact exec_fault_marked h hskip
    · exact State.raise_marked h
  · cases h
    exact deviceTurn_fault_marked hturn
  · cases h

theorem Halt.left_fault (h : Halt) (t : State) : (h.fault t).left = t := by cases h <;> rfl

/-- In the state that a marked fault leaves, a step is that fault again (log entry 15). -/
theorem Fault.Marked.step_left {f : Fault} (h : f.Marked) : f.left.halted ≠ none ∧ step f.left = .fault f := by
  obtain ⟨m, t, rfl, hm⟩ := h
  rw [Halt.left_fault]
  refine ⟨by rw [hm]; exact Option.some_ne_none m, ?_⟩
  simp only [step, hm]

theorem exec_not_refused (i : Instr) (s : State) (r : Refusal) : exec i s ≠ .refused r := by
  intro h
  cases execOutcome s i with
  | ordinary he _ => cases he.symm.trans h
  | endless _ _ he => cases he.symm.trans h
  | int u => rcases (readUnary u s).st.enqueue_cases (readUnary u s).u with ⟨_, he⟩ | ⟨_, he⟩ <;> cases he.symm.trans h
  | ias u | rfi u | iaq u => cases h
  | absent _ _ he => cases he.symm.trans h
  | device _ _ _ _ _ he => exact applyActions_not_refused _ _ _ (he.symm.trans h)
  | err => cases h

theorem deviceTurn_not_refused (s : State) (r : Refusal) : deviceTurn s ≠ .refused r := by
  obtain ⟨acts, schedule, draws, hd⟩ := deviceTurn_eq_applyActions s
  rw [hd]
  exact applyActions_not_refused acts _ r

end Sys2Proof.Machine
end

section
/-! PROOFS. The settled statements about stops and refusals. -/

namespace Sys2Proof.Machine

/-- Settles O54, by what an instruction and the devices' turn can do. -/
theorem nothingIsRefused : Obligations.NothingIsRefused := by
  refine ⟨exec_not_refused, fun s r h => ?_⟩
  rcases step_cases s with ⟨_, _, hs⟩ | ⟨_, t, _, hs⟩ | ⟨_, _, _, hs⟩ | ⟨_, r', hturn, _⟩
  · cases hs.symm.trans h
  · rcases runInstruction_cases t.dispatch with ⟨i, _, _, he⟩ | ⟨_, _, he⟩
    · exact exec_not_refused _ _ _ (he.symm.trans (hs.symm.trans h))
    · cases he.symm.trans (hs.symm.trans h)
  · cases hs.symm.trans h
  · exact deviceTurn_not_refused s r' hturn

/-- Settles O55, by what each instruction can do; an endless skip has met conditionals only. -/
theorem instructionsStopOnlyAsSpecified : Obligations.InstructionsStopOnlyAsSpecified := by
  intro i s f h
  cases execOutcome s i with
  | ordinary he _ => cases he.symm.trans h
  | endless hi hend he =>
    cases he.symm.trans h
    exact .inr (.inr (.inr (.inr ⟨_, _, hi, _, rfl, (skipFrom_skipFuel_eq_none_iff _).mp hend⟩)))
  | int u =>
    obtain ⟨hfull, rfl⟩ := State.enqueue_fault h
    rw [readUnary_st_queue] at hfull
    exact .inr (.inl ⟨u, rfl, hfull, _, rfl⟩)
  | ias u | rfi u | iaq u => cases h
  | absent hi hport he =>
    cases he.symm.trans h
    exact .inr (.inr (.inl ⟨_, hi, hport, _, rfl⟩))
  | device _ _ _ hport _ he =>
    obtain ⟨t, rfl, -, -⟩ := applyActions_fault (he.symm.trans h)
    exact .inr (.inr (.inr (.inl ⟨_, rfl, hport, t, rfl⟩)))
  | err =>
    cases h
    exact .inl ⟨rfl, _, rfl⟩

/-- Settles O56: every fault but an endless skip is marked. -/
theorem faultsAreFinal : Obligations.FaultsAreFinal := fun _ _ h hskip => (step_fault_marked h hskip).step_left

end Sys2Proof.Machine
end

section
/-! PROOFS. Instructions placed in RAM, and the self-loop (10_state.md section 3, 70_reset_and_hazards.md R245). -/

namespace Sys2Proof.Machine

/-- Placing words changes RAM only. -/
theorem State.placeWords_eq (s : State) (a : Word) (ws : List Word) :
    s.placeWords a ws = { s with mem := (s.placeWords a ws).mem } := by
  induction ws generalizing s a with
  | nil => rfl
  | cons w ws ih => exact ih (s.writeMem a w) (a + 1)

/-- Up to three words placed at PC, across the top of RAM too, are what is fetched first (R13, R33). -/
theorem State.fetchWords_placeWords (s : State) {ws : List Word} (h : ws.length ≤ 3) :
    ∃ rest, (s.placeWords s.pc ws).fetchWords = ws ++ rest := by
  have htwo : s.pc + 1#16 + 1#16 = s.pc + 2#16 := BitVec.add_assoc s.pc 1 1
  match ws, h with
  | [], _ => exact ⟨_, rfl⟩
  | [x], _ => simp [State.placeWords, State.fetchWords]
  | [x, y], _ => simp [State.placeWords, State.fetchWords]
  | [x, y, z], _ => simp [State.placeWords, State.fetchWords, htwo]

/-- Settles O40: the three words fetched start with the encoding, which decodes to the instruction whatever follows. -/
theorem placedInstructionRuns : Obligations.PlacedInstructionRuns := by
  intro s i hi hhalt hact hqueue
  obtain ⟨w, tail, -, -, hlen⟩ := i.encodeLength hi
  obtain ⟨rest, hfetch⟩ := s.fetchWords_placeWords hlen
  have hdecode : decode (s.placeWords s.pc (encode i)).fetchWords = .ok (i, rest) := by
    rw [hfetch]
    exact decodeAfterEncode i rest hi
  have hrest := s.placeWords_eq s.pc (encode i)
  have hhalt' : (s.placeWords s.pc (encode i)).halted = none := by rw [hrest]; exact hhalt
  have hact' : (s.placeWords s.pc (encode i)).activated = [] := by rw [hrest]; exact hact
  have hqueue' : (s.placeWords s.pc (encode i)).queue = [] := by rw [hrest]; exact hqueue
  rw [step_idle hhalt' hact', State.dispatch_of_held (.inr hqueue'), runInstruction_of_decode hdecode]

/-- SUB PC, 1 jumps to itself; it borrows where PC + 1 wraps to 0 (R102, decision D3). -/
theorem exec_sub_pc_one (s : State) :
    exec (.sub .pc (.lit 1#16)) s = .next { s with ps := if s.pc = 0xFFFF#16 then 0xFFFF#16 else 0#16 } := by
  have hpc : s.pc + 1#16 - 1#16 = s.pc := BitVec.add_sub_cancel _ _
  have hborrow : (s.pc + 1#16).toNat < (1#16).toNat ↔ s.pc = 0xFFFF#16 := by
    constructor <;> intro h <;> bv_omega
  calc exec (.sub .pc (.lit 1#16)) s
    _ = .next { s with
          pc := s.pc + 1#16 - 1#16
          ps := if (s.pc + 1#16).toNat < (1#16).toNat then 0xFFFF#16 else 0#16 } := by
      rw [exec_sub, storeWordAndPs_eq, subWords_eq]
      rfl
    _ = .next { s with ps := if s.pc = 0xFFFF#16 then 0xFFFF#16 else 0#16 } := by
      simp only [hpc, hborrow]

/-- 0x8B83 is SUB PC, 1, whatever words follow it. -/
theorem runInstruction_at_self_loop {s : State} (h : s.readMem s.pc = 0x8B83#16) :
    runInstruction s = .next { s with ps := if s.pc = 0xFFFF#16 then 0xFFFF#16 else 0#16 } := by
  have hdecode : decode s.fetchWords = .ok (.sub .pc (.lit 1#16), [s.readMem (s.pc + 1), s.readMem (s.pc + 2)]) := by
    rw [State.fetchWords, h]
    exact decodeAfterEncode (.sub .pc (.lit 1#16)) [_, _] rfl
  rw [runInstruction_of_decode hdecode, exec_sub_pc_one]

/-- Where no handler can be entered the dispatch is the loss of the queue's head, with queueing off. -/
theorem State.dispatch_of_no_handler {s : State} (h : s.queue = [] ∨ s.queueing = true ∨ s.ia = 0#16) :
    s.dispatch = { s with queue := if s.queueing then s.queue else s.queue.tail } := by
  rcases s.dispatch_cases with ⟨hheld, hd⟩ | ⟨msg, rest, hoff, hq, _, hd⟩ | ⟨msg, rest, hoff, hq, hia, _⟩
  · have hqueue : (if s.queueing then s.queue else s.queue.tail) = s.queue := by
      rcases hheld with hon | hq
      · rw [if_pos hon]
      · rw [hq, List.tail_nil, ite_self]
    rw [hd, hqueue]
  · rw [hd, hoff, hq]
    rfl
  · simp [hoff, hq, hia] at h

/-- Settles O60: a step there is the dispatch, which enters no handler, and SUB PC, 1. -/
theorem selfLoopStaysForEver : Obligations.SelfLoopStaysForEver := by
  intro s ⟨hword, hheld, hhalt⟩ hact
  refine ⟨?step, ⟨hword, ?held, hhalt⟩, hact⟩
  case step =>
    rw [step_idle hhalt hact, State.dispatch_of_no_handler hheld]
    exact runInstruction_at_self_loop hword
  case held =>
    rcases hheld with hq | hon | hia
    · exact .inl (by simp only [hq, List.tail_nil, ite_self])
    · exact .inr (.inl hon)
    · exact .inr (.inr hia)

end Sys2Proof.Machine
end
